-- ==== Sys2Proof/Word.lean ====
section
/-! DEFINITION. The word types of the old_vcpu core (00_scope.md R6, R7): what the spec treats as
bits is a bit vector whose bit 0 is the least significant bit. -/

namespace Sys2Proof

/-- One memory byte, `u8` (R60). -/
abbrev Byte := BitVec 8

/-- A general register, the instruction register and an instruction word, `u128` (R20, R27, R100). -/
abbrev Word := BitVec 128

/-- One 64-bit half of a register, and the `immediate` field, `u64` (R101, R160, R161). -/
abbrev Half := BitVec 64

/-- A global address, `u64` (R60). -/
abbrev Address := BitVec 64

/-- A register index as the instruction word carries it, `u8` (R22). -/
abbrev RegIndex := BitVec 8

end Sys2Proof
end

