-- ==== Sys2Proof/Config.lean ====
section
/-! DEFINITION. The literals of the hardware, each named once (92_eei_decisions.md D38), the
parameters of 00_scope.md R5 as plain data, and the free values: constants with no body, of which
no proof can see a value. -/

namespace Sys2Proof

namespace Config

/-- The highest address, `0xFFFFFFFFFFFFFFFF` (R60). -/
abbrev maxAddress : Nat := 0xFFFFFFFFFFFFFFFF

/-- Last address of the Null segment (R61). -/
abbrev nullLast : Nat := 0xF

/-- Last address of the System segment (R61). -/
abbrev systemLast : Nat := 0xFFFFF

/-- `ROM_BASE`, the first address of the ROM segment (R61). -/
abbrev romBase : Nat := 0x100000

/-- Last address of the ROM segment (R61). -/
abbrev romLast : Nat := 0x1FFFFFFFF

/-- Last address of the Hardware I/O segment (R61). -/
abbrev hardwareLast : Nat := 0x2FFFFFFFF

/-- `RAM_BASE`, the first address of the RAM segment (R61). -/
abbrev ramBase : Nat := 0x300000000

/-- Bytes of an instruction word and of a `Load` or `Store` (R69, R100). -/
abbrev wordBytes : Nat := 16

/-- Number of general registers (R6, R20). -/
abbrev generalCount : Nat := 26

/-- Opcode of `Null` (R104). -/
abbrev opNull : BitVec 16 := 0x0000

/-- Opcode of `SetLo` (R104). -/
abbrev opSetLo : BitVec 16 := 0xF010

/-- Opcode of `SetHi` (R104). -/
abbrev opSetHi : BitVec 16 := 0xF011

/-- Opcode of `Load` (R104). -/
abbrev opLoad : BitVec 16 := 0xF013

/-- Opcode of `Store` (R104). -/
abbrev opStore : BitVec 16 := 0xF020

/-- What an address of a device reads as that the device's cell list does not name: 0, as every RAM byte is after
reset (R39) and as the zero bytes of a ROM image are (R75). -/
abbrev unlistedByte : Byte := 0

/-! ### Free values

Whoever states a claim about one of these states it for every value. -/

/-- FREE VALUE (log 13): the 128-bit registers before the first reset, which R40 leaves
unspecified; the argument numbers them. -/
opaque powerOnWord : Nat → Word

/-- FREE VALUE (log 13): the 64-bit registers before the first reset (R40). -/
opaque powerOnHalf : Nat → Half

/-- FREE VALUE (log 13): the status flags before the first reset (R40). -/
opaque powerOnFlag : Nat → Bool

/-- FREE VALUE (log 13): the RAM byte at each offset before the first reset (R40, R245). -/
opaque powerOnRam : Nat → Byte

/-- FREE VALUE (log 13): the budget `owed` before the first reset (R40). -/
opaque powerOnOwed : Nat

/-- FREE VALUE (log 10), part of `PACER_GRANT_POLICY` (R192): is a tick granted when the elapsed time
is exactly one period? -/
opaque grantAtPeriod : Bool

/-- FREE VALUE (log 10), part of `PACER_GRANT_POLICY` (R192): what a grant leaves in `last_grant`,
from its old value, the time of the poll and the period. -/
opaque nextLastGrant : (lastGrant now period : Rat) → Rat

/-- FREE VALUE (log 10), part of `PACER_GRANT_POLICY` (R192): `last_grant` before the first grant of
a run, from the target frequency. -/
opaque firstLastGrant : (clockHz : Rat) → Rat

end Config

/-- `CYCLES` (R5, R134): the cost of each instruction variant. -/
structure CycleTable where
  null  : Nat
  setLo : Nat
  setHi : Nat
  load  : Nat
  store : Nat
deriving DecidableEq, Repr

/-- The parameters of R5 that the core's rules read. `ROM_IMAGE`, `ROM_SIZE` and `RAM_SIZE` are held
by the devices, `CLOCK_HZ` and `SMOOTH_CAP` by the pacer. -/
structure Params where
  /-- `ENTRY` (R5, D15). -/
  entry : Address
  /-- `IDX_ZERO` (R21, D1). -/
  idxZero : RegIndex
  /-- `IDX_ONE` (R21, D1). -/
  idxOne : RegIndex
  /-- `IDX_TWO` (R21, D1). -/
  idxTwo : RegIndex
  /-- `STACK_HIGH` (R180, D16). -/
  stackHigh : BitVec 56
  /-- `CYCLES` (R134, D19). -/
  cycles : CycleTable
deriving DecidableEq, Repr

/-- The spec's defaults of the open parameters (R5; D1, D15, D16, D19; logs 5 to 8). -/
def Params.default : Params :=
  { entry := BitVec.ofNat 64 Config.romBase
    idxZero := 26
    idxOne := 27
    idxTwo := 28
    stackHigh := 0x3000000
    cycles := { null := 1, setLo := 1, setHi := 1, load := 1, store := 1 } }

/-- What R5, R21 and D19 say of the parameters: three different constant-register indices outside
0 to 25, and positive costs. -/
abbrev Params.wf (p : Params) : Prop :=
  (Config.generalCount ≤ p.idxZero.toNat ∧ Config.generalCount ≤ p.idxOne.toNat ∧
    Config.generalCount ≤ p.idxTwo.toNat) ∧
  (p.idxZero ≠ p.idxOne ∧ p.idxOne ≠ p.idxTwo ∧ p.idxZero ≠ p.idxTwo) ∧
  (1 ≤ p.cycles.null ∧ 1 ≤ p.cycles.setLo ∧ 1 ≤ p.cycles.setHi ∧ 1 ≤ p.cycles.load ∧
    1 ≤ p.cycles.store)

end Sys2Proof
end

