-- ==== Sys2Proof/Syntax.lean ====
section
/-! DEFINITION. The decoded instruction (30_encoding.md R104, R105, R110): five variants, each keeping
all seven fields of its word. -/

namespace Sys2Proof

/-- The seven fields of the instruction word (R101). -/
structure Fields where
  /-- Bits 127 to 112. -/
  opcode : BitVec 16
  /-- Bits 111 to 104. -/
  operandA : BitVec 8
  /-- Bits 103 to 96. -/
  operandB : BitVec 8
  /-- Bits 95 to 88: the `register` of `SetLo`, `SetHi`, `Load`, `Store` (R108). -/
  target : RegIndex
  /-- Bits 87 to 80. -/
  shiftAmount : BitVec 8
  /-- Bits 79 to 64. -/
  reserved : BitVec 16
  /-- Bits 63 to 0: the `immediate` of `SetLo`, `SetHi`, the `address` of `Load`, `Store` (R108). -/
  immediate : Half
deriving DecidableEq, Repr

/-- The closed instruction set (R2, R104), one constructor per row of the opcode table. -/
inductive Instr where
  /-- `NULL`, R150. -/
  | null (f : Fields)
  /-- `SETLO`, R160. -/
  | setLo (f : Fields)
  /-- `SETHI`, R161. -/
  | setHi (f : Fields)
  /-- `LOAD`, R170. -/
  | load (f : Fields)
  /-- `STORE`, R171. -/
  | store (f : Fields)
deriving DecidableEq, Repr

/-- The record `f` of R105. -/
def Instr.fields : Instr → Fields
  | .null f => f
  | .setLo f => f
  | .setHi f => f
  | .load f => f
  | .store f => f

/-- The opcode that selects each variant (R104). -/
def Instr.opcode : Instr → BitVec 16
  | .null _ => Config.opNull
  | .setLo _ => Config.opSetLo
  | .setHi _ => Config.opSetHi
  | .load _ => Config.opLoad
  | .store _ => Config.opStore

/-- The cost of an instruction: it depends on the variant only (R134). -/
def CycleTable.cost (c : CycleTable) : Instr → Nat
  | .null _ => c.null
  | .setLo _ => c.setLo
  | .setHi _ => c.setHi
  | .load _ => c.load
  | .store _ => c.store

end Sys2Proof
end

