-- ==== Sys2Proof/WellFormed.lean ====
section
/-! DEFINITION. Which terms of Instr are instructions: the record a variant keeps holds that variant's
opcode (30_encoding.md R104, R105). No other field is ever checked (R105, R109). -/

namespace Sys2Proof

/-- The one check: the kept `opcode` field is the variant's (R104). -/
def Instr.wellFormed (i : Instr) : Bool :=
  decide (i.fields.opcode = i.opcode)

end Sys2Proof
end

