-- ==== Sys2Proof/Decode.lean ====
section
/-! DEFINITION. The decoder and the encoder of 30_encoding.md, the little-endian byte layout of a word
(R103, 20_memory.md R67), and the host's decodeTableWord. -/

namespace Sys2Proof

/-! ### Byte order (R67, R70, R103) -/

/-- The value of a run of bytes, the first the least significant (R67). -/
def leValue : List Byte → Nat
  | [] => 0
  | b :: bs => b.toNat + 256 * leValue bs

/-- The first `n` bytes of a value, the least significant first: byte `i` is `v[8*i+7 : 8*i]` (R68). -/
def leBytes {w : Nat} (v : BitVec w) : Nat → List Byte
  | 0 => []
  | n + 1 => v.extractLsb' 0 8 :: leBytes (v >>> 8) n

/-! ### Fields (R101, R102) -/

/-- Extraction of the seven fields (R102). -/
def fieldsOf (w : Word) : Fields :=
  { opcode      := w.extractLsb' 112 16
    operandA    := w.extractLsb' 104 8
    operandB    := w.extractLsb' 96 8
    target      := w.extractLsb' 88 8
    shiftAmount := w.extractLsb' 80 8
    reserved    := w.extractLsb' 64 16
    immediate   := w.extractLsb' 0 64 }

/-! ### Decode (R105, R106) -/

/-- Why a word is no instruction. -/
inductive DecodeError where
  /-- "Unknown opcodes fail with `InvalidOpCode(opcode)` carrying the raw 16-bit value" (R105, R106). -/
  | invalidOpCode (op : BitVec 16)
deriving DecidableEq, Repr

/-- `Decode(w)` (R105): pure, total; the opcode alone selects the variant (R104). -/
def decode (w : Word) : Except DecodeError Instr :=
  let f := fieldsOf w
  if f.opcode = Config.opNull then .ok (.null f)
  else if f.opcode = Config.opSetLo then .ok (.setLo f)
  else if f.opcode = Config.opSetHi then .ok (.setHi f)
  else if f.opcode = Config.opLoad then .ok (.load f)
  else if f.opcode = Config.opStore then .ok (.store f)
  else .error (.invalidOpCode f.opcode)

/-- Why a run of bytes begins with no instruction. -/
inductive BytesError where
  /-- Fewer than the 16 bytes every instruction has (R100): how many there were. -/
  | truncated (n : Nat)
  /-- The first 16 bytes are a word that `decode` rejects. -/
  | rejected (e : DecodeError)
deriving DecidableEq, Repr

/-- The instruction a run of bytes begins with, and the rest of the run: 16 bytes, little-endian, are
one word (R100, R103). -/
def decodeBytes (bs : List Byte) : Except BytesError (Instr × List Byte) :=
  if bs.length < Config.wordBytes then .error (.truncated bs.length)
  else
    match decode (BitVec.ofNat 128 (leValue (bs.take Config.wordBytes))) with
    | .ok i => .ok (i, bs.drop Config.wordBytes)
    | .error e => .error (.rejected e)

/-! ### Encode (R110) -/

/-- `Encode(f)` (R110), as the spec writes it. -/
def encodeFields (f : Fields) : Word :=
  (f.opcode.zeroExtend 128 <<< 112) ||| (f.operandA.zeroExtend 128 <<< 104) |||
  (f.operandB.zeroExtend 128 <<< 96) ||| (f.target.zeroExtend 128 <<< 88) |||
  (f.shiftAmount.zeroExtend 128 <<< 80) ||| (f.reserved.zeroExtend 128 <<< 64) |||
  f.immediate.zeroExtend 128

/-- The word of an instruction (R110). -/
def encode (i : Instr) : Word :=
  encodeFields i.fields

/-! ### The host's question about the opcode table -/

/-- The instruction the decoder reads from the bits `w` of a table row: the one 128-bit word, laid out
little-endian (R103) with every bit at `nbits` and above 0, and given to the byte decoder. The bit
numbers of the table and of R101 agree, since the instruction is one word. -/
def decodeTableWord (nbits w : Nat) : Option Instr :=
  match decodeBytes (leBytes (BitVec.ofNat 128 (w % 2 ^ nbits)) Config.wordBytes) with
  | .ok (i, _) => some i
  | .error _ => none

end Sys2Proof
end

