-- ==== Sys2Proof/Machine/State.lean ====
section
/-! DEFINITION. Everything the spec gives the machine (10_state.md R20 to R37), as plain data; the reasons
a step can stop (60_exceptions.md R200 to R212); and the state after reset (R39). -/

namespace Sys2Proof.Machine

/-- The segments of the address space (R61). -/
inductive Segment where
  | null
  | system
  | rom
  | hardwareIO
  | ram
deriving DecidableEq, Repr

/-- A storage device behind the MMU: `size` bytes (R32, R33), the first at its segment's base. `cells`
lists the (global address, byte) pairs whose byte is not `Config.unlistedByte` (log 14). -/
structure Device where
  size  : Nat
  cells : List Host.Cell
deriving DecidableEq, Repr

/-- The canonical form of a device at a base: addresses strictly rising and inside the device, no listed
byte equal to what an unlisted address reads as. -/
abbrev Device.wf (d : Device) (base : Nat) : Prop :=
  d.cells.Pairwise (fun c e => c.1 < e.1) ∧
  ∀ c ∈ d.cells, c.2 ≠ Config.unlistedByte ∧ base ≤ c.1 ∧ c.1 < base + d.size

/-- The two devices the MMU composes (R34). -/
structure Memory where
  /-- The ROM device, equal to `ROM_IMAGE` for ever (R32, R243). -/
  rom : Device
  /-- The RAM device (R33). -/
  ram : Device
deriving DecidableEq, Repr

/-- Both devices are in canonical form. -/
abbrev Memory.wf (m : Memory) : Prop := m.rom.wf Config.romBase ∧ m.ram.wf Config.ramBase

/-- The memory errors of R201: what the MMU itself reports, before the CPU wraps it into a `Fault`. -/
inductive MemError where
  /-- R203; raised by `Memory.readByte` and `Memory.writeByte`; safe: the spec's own fault. -/
  | nullAddress (a : Address)
  /-- R204; raised by `Memory.readByte` and `Memory.writeByte`; safe: the spec's own fault. -/
  | reservedAddress (a : Address)
  /-- R205; raised by `Memory.readByte` and `Memory.writeByte`; safe: the spec's own fault. -/
  | invalidAddress (a : Address)
  /-- R206; raised by `Memory.writeByte`; safe: the spec's own fault. -/
  | writeToReadOnlyAddress (a : Address)
  /-- R207; raised by `Memory.readBytes` and `Memory.writeBytes`; safe: the spec's own fault. -/
  | memoryOverflow
deriving DecidableEq, Repr

/-- The seven status flags, independent booleans with no packed form (R31, D28). -/
structure Flags where
  c : Bool
  z : Bool
  i : Bool
  d : Bool
  b : Bool
  v : Bool
  n : Bool
deriving DecidableEq, Repr

/-- The run state (R35). -/
inductive RunState where
  | uninitialized
  | running
deriving DecidableEq, Repr

/-- The clock pacer (R36) with the two parameters of its construction (R191). -/
structure Pacer where
  /-- The cycle budget owed by the last-issued instruction (R36, R193). -/
  owed : Nat
  /-- `last_grant`, wall-clock time in seconds (R36, R192; log 23). -/
  lastGrant : Rat
  /-- The smoothing buffer, whose contents and use the source does not describe (R36, R195; log 11). -/
  smoothing : List Rat
  /-- `CLOCK_HZ` (R5, R191). -/
  clockHz : Rat
  /-- `SMOOTH_CAP` (R5, R191). -/
  smoothCap : Nat
deriving DecidableEq, Repr

/-- The state of the core. -/
structure State where
  /-- `G[0]` to `G[25]` (R20). -/
  g : Vector Word 26
  /-- `PC` (R26). -/
  pc : Address
  /-- `IR` (R27). -/
  ir : Word
  /-- `SP` (R28). -/
  sp : Half
  /-- `FP` (R29). -/
  fp : Half
  /-- `RA` (R30). -/
  ra : Half
  /-- The status flags (R31). -/
  flags : Flags
  /-- ROM and RAM (R32, R33). -/
  mem : Memory
  /-- The run state (R35). -/
  runState : RunState
  /-- The pacer (R36). -/
  pacer : Pacer
  /-- The parameters (R5): no operation changes them. -/
  cfg : Params
deriving DecidableEq, Repr

/-- The faults of R202 to R212, one constructor a kind (R214), each with the payload the spec gives it
and `left`, the state at the point it was raised (R9, R200, R135; log 1). The host may go on from
`left` (R139). -/
inductive Fault where
  /-- R202: the fetched word's opcode is none of the five. Raised by `stepWithCost` when `decode`
  rejects the word. Safe: the spec's own fault. -/
  | invalidOpCode (op : BitVec 16) (left : State)
  /-- R203: a byte access in the Null segment. Raised by fetch, Load, Store, Push, Pull. Safe: the
  spec's own fault. -/
  | nullAddress (a : Address) (left : State)
  /-- R204: a byte access in the System or Hardware I/O segment. Raised by fetch, Load, Store, Push,
  Pull. Safe: the spec's own fault. -/
  | reservedAddress (a : Address) (left : State)
  /-- R205: a byte access beyond the device of its segment. Raised by fetch, Load, Store, Push, Pull.
  Safe: the spec's own fault. -/
  | invalidAddress (a : Address) (left : State)
  /-- R206: a byte write in the ROM segment. Raised by Store and Push. Safe: the spec's own fault. -/
  | writeToReadOnlyAddress (a : Address) (left : State)
  /-- R207: a multi-byte access runs past the highest address. Raised by Load and Store. Safe: the
  spec's own fault. -/
  | memoryOverflow (left : State)
  /-- R208: `PC + 16` leaves 64 bits. Raised by fetch. Safe: the spec's own fault. -/
  | programCounterOverflow (left : State)
  /-- R209: Push with `SP[7:0]` = 0xFF. Raised by `push`, by no instruction. Safe: the spec's own
  fault. -/
  | stackOverflow (left : State)
  /-- R210: Pull with `SP[7:0]` = 0. Raised by `pull`, by no instruction. Safe: the spec's own fault. -/
  | stackUnderflow (left : State)
  /-- R211: a register index that is neither general nor constant. Raised by SetLo, SetHi, Load, Store.
  Safe: the spec's own fault, under the spec's own name (D3). -/
  | invalidRegister (i : RegIndex) (left : State)
  /-- R212: a write to a constant register. Raised by SetLo, SetHi, Load. Safe: the spec's own fault,
  under the spec's own name (D4). -/
  | writeToReadOnlyRegister (i : RegIndex) (left : State)
deriving DecidableEq, Repr

/-- Where the spec gives no meaning. -/
inductive Refusal where
  /-- An instruction this model has not reached: raised by `exec` alone. Safe. No arm raises it. -/
  | notModelled (mnemonic : String)
  /-- A `Step` or a `Run` in run state Uninitialized (R35, D22). Raised by `stepWithCost`, `startRun` and
  `runIteration` (log 2).
  Safe: the spec gives it no meaning. -/
  | uninitialized
  /-- A pacer or a run with a target frequency that is not positive (R191, D21). Raised by `construct`,
  `startRun` and `poll` (log 2). Safe: the spec says a model refuses it. -/
  | clockNotPositive
deriving DecidableEq, Repr

/-- The machine right after reset (R39), with the default parameters (`Params.default`), an empty ROM
image (log 4), a 256-byte RAM (log 3) and the pacer values of log 9. -/
def State.reset : State :=
  { g := Vector.replicate 26 0
    pc := BitVec.ofNat 64 Config.romBase
    ir := 0
    sp := 0
    fp := 0
    ra := 0
    flags := { c := false, z := false, i := false, d := false, b := false, v := false, n := false }
    mem := { rom := { size := 0, cells := [] }, ram := { size := 256, cells := [] } }
    runState := .running
    pacer := { owed := 0, lastGrant := 0, smoothing := [], clockHz := 1, smoothCap := 0 }
    cfg := Params.default }

end Sys2Proof.Machine
end

