-- ==== Sys2Proof/Machine/Ops.lean ====
section
/-! DEFINITION. The operations every rule is written with: raising a fault and going on after one
(00_scope.md R9, 60_exceptions.md R200, R218, R220), the devices and the MMU (20_memory.md), and
fetching an instruction word (40_step_engine.md R131). -/

namespace Sys2Proof.Machine

/-! ### Results and faults -/

/-- What an operation of the core answers: a value, a fault, or a refusal. -/
abbrev Result (α : Type) := Host.Outcome α Fault Refusal

/-- Run `r`, then `k` on its value; a fault or a refusal of `r` ends the whole (R9). -/
def andThen {α β : Type} (r : Result α) (k : α → Result β) : Result β :=
  match r with
  | .next a => k a
  | .fault f => .fault f
  | .refused q => .refused q

/-- TAKING A FAULT (R200, R218), the one way a memory error becomes the result of a step: the error
keeps its kind and payload (R201), the state stays exactly as far as it progressed; no handler is
entered, nothing is saved, no mode changes. -/
def memFault (e : MemError) (s : State) : Fault :=
  match e with
  | .nullAddress a => .nullAddress a s
  | .reservedAddress a => .reservedAddress a s
  | .invalidAddress a => .invalidAddress a s
  | .writeToReadOnlyAddress a => .writeToReadOnlyAddress a s
  | .memoryOverflow => .memoryOverflow s

/-- GOING ON AFTER A FAULT (R139, R220): there is nothing to restore; the host's next call finds the
core in the state the fault left (R135). -/
def resume (f : Fault) : State :=
  match f with
  | .invalidOpCode _ s => s
  | .nullAddress _ s => s
  | .reservedAddress _ s => s
  | .invalidAddress _ s => s
  | .writeToReadOnlyAddress _ s => s
  | .memoryOverflow s => s
  | .programCounterOverflow s => s
  | .stackOverflow s => s
  | .stackUnderflow s => s
  | .invalidRegister _ s => s
  | .writeToReadOnlyRegister _ s => s

/-- The same fault with another state left: two faults are of one kind and payload when one is the other
leaving the other's state. -/
def leaving (f : Fault) (s : State) : Fault :=
  match f with
  | .invalidOpCode op _ => .invalidOpCode op s
  | .nullAddress a _ => .nullAddress a s
  | .reservedAddress a _ => .reservedAddress a s
  | .invalidAddress a _ => .invalidAddress a s
  | .writeToReadOnlyAddress a _ => .writeToReadOnlyAddress a s
  | .memoryOverflow _ => .memoryOverflow s
  | .programCounterOverflow _ => .programCounterOverflow s
  | .stackOverflow _ => .stackOverflow s
  | .stackUnderflow _ => .stackUnderflow s
  | .invalidRegister i _ => .invalidRegister i s
  | .writeToReadOnlyRegister i _ => .writeToReadOnlyRegister i s

/-! ### Devices -/

/-- The byte a cell list holds at an address: the first cell of that address, else the unlisted byte. -/
def cellsRead : List Host.Cell → Nat → Byte
  | [], _ => Config.unlistedByte
  | c :: cs, x => if c.1 = x then c.2 else cellsRead cs x

/-- Put a cell before the first cell of a higher address. -/
def cellsInsert (c : Host.Cell) : List Host.Cell → List Host.Cell
  | [] => [c]
  | e :: es => if c.1 < e.1 then c :: e :: es else e :: cellsInsert c es

/-- The cell list after address `x` is given byte `b`: the canonical form is kept, so the unlisted byte
removes the cell. -/
def cellsWrite (cs : List Host.Cell) (x : Nat) (b : Byte) : List Host.Cell :=
  let rest := cs.filter (fun c => c.1 ≠ x)
  if b = Config.unlistedByte then rest else cellsInsert (x, b) rest

/-- The device's byte at a global address. -/
def deviceRead (d : Device) (x : Nat) : Byte := cellsRead d.cells x

/-- The device with a byte given to a global address. -/
def deviceWrite (d : Device) (x : Nat) (b : Byte) : Device := { d with cells := cellsWrite d.cells x b }

/-- Write a run of bytes from a global address upward. -/
def deviceFill (d : Device) : Nat → List Byte → Device
  | _, [] => d
  | x, b :: bs => deviceFill (deviceWrite d x b) (x + 1) bs

/-- The device at `base` whose bytes are the list's, in order (R32, R75). -/
def deviceOf (base : Nat) (bs : List Byte) : Device :=
  deviceFill { size := bs.length, cells := [] } base bs

/-- `ROM[o]` (R8, R32). -/
def romByte (m : Memory) (o : Nat) : Byte := deviceRead m.rom (Config.romBase + o)

/-- `RAM[o]` (R8, R33). -/
def ramByte (m : Memory) (o : Nat) : Byte := deviceRead m.ram (Config.ramBase + o)

/-! ### The MMU: one byte (R62, R63, R64) -/

/-- `Segment(a)` (R62): the whole 64-bit address against the bounds of R61. -/
def segment (a : Address) : Segment :=
  if a.toNat ≤ Config.nullLast then .null
  else if a.toNat ≤ Config.systemLast then .system
  else if a.toNat ≤ Config.romLast then .rom
  else if a.toNat ≤ Config.hardwareLast then .hardwareIO
  else .ram

/-- `ReadByte(a)` (R63) of a memory: `a` minus the base is inside the device exactly when `a` is below
the base plus its size; errors carry the global address (R205). -/
def Memory.readByte (m : Memory) (a : Address) : Except MemError Byte :=
  match segment a with
  | .null => .error (.nullAddress a)
  | .system => .error (.reservedAddress a)
  | .rom =>
    if a.toNat < Config.romBase + m.rom.size then .ok (deviceRead m.rom a.toNat)
    else .error (.invalidAddress a)
  | .hardwareIO => .error (.reservedAddress a)
  | .ram =>
    if a.toNat < Config.ramBase + m.ram.size then .ok (deviceRead m.ram a.toNat)
    else .error (.invalidAddress a)

/-- `WriteByte(a, b)` (R64) of a memory; the ROM segment is read-only as a whole (D12). -/
def Memory.writeByte (m : Memory) (a : Address) (b : Byte) : Except MemError Memory :=
  match segment a with
  | .null => .error (.nullAddress a)
  | .system => .error (.reservedAddress a)
  | .rom => .error (.writeToReadOnlyAddress a)
  | .hardwareIO => .error (.reservedAddress a)
  | .ram =>
    if a.toNat < Config.ramBase + m.ram.size then
      .ok { m with ram := deviceWrite m.ram a.toNat b }
    else .error (.invalidAddress a)

/-! ### The MMU: many bytes (R67, R68, R76) -/

/-- The `n` bytes from address `a` upward, each after the overflow check (R67, R76, D11). The address is
a natural, so that `a + i` is exact. -/
def Memory.readBytes (m : Memory) : Nat → Nat → Except MemError (List Byte)
  | _, 0 => .ok []
  | a, n + 1 =>
    if Config.maxAddress < a then .error .memoryOverflow
    else
      match m.readByte (BitVec.ofNat 64 a) with
      | .error e => .error e
      | .ok b =>
        match m.readBytes (a + 1) n with
        | .error e => .error e
        | .ok bs => .ok (b :: bs)

/-- `MemRead(a, n)` (R67): 1, 2, 4, 8 and 16 bytes are the widths the MMU offers (R69, D33). -/
def Memory.read (m : Memory) (a : Address) (n : Nat) : Except MemError (BitVec (8 * n)) :=
  match m.readBytes a.toNat n with
  | .error e => .error e
  | .ok bs => .ok (BitVec.ofNat (8 * n) (leValue bs))

/-- Write a run of bytes from address `a` upward: the memory as far as the walk went, and the error that
ended it, if one did (R68). -/
def Memory.writeBytes (m : Memory) : Nat → List Byte → Memory × Option MemError
  | _, [] => (m, none)
  | a, b :: bs =>
    if Config.maxAddress < a then (m, some .memoryOverflow)
    else
      match m.writeByte (BitVec.ofNat 64 a) b with
      | .error e => (m, some e)
      | .ok m' => m'.writeBytes (a + 1) bs

/-- `MemWrite(a, n, v)` (R68): not atomic, a failure leaves the written prefix. -/
def Memory.write (m : Memory) (a : Address) (n : Nat) (v : BitVec (8 * n)) :
    Memory × Option MemError :=
  m.writeBytes a.toNat (leBytes v n)

/-- `zero()` (R74): every RAM byte 0, ROM untouched. -/
def Memory.zero (m : Memory) : Memory := { m with ram := { m.ram with cells := [] } }

/-! ### The MMU as the core calls it -/

/-- The state with another memory. -/
def setMem (s : State) (m : Memory) : State := { s with mem := m }

/-- `ReadByte(a)` (R63). -/
def readByte (s : State) (a : Address) : Result Byte :=
  match s.mem.readByte a with
  | .error e => .fault (memFault e s)
  | .ok b => .next b

/-- `WriteByte(a, b)` (R64). -/
def writeByte (s : State) (a : Address) (b : Byte) : Result State :=
  match s.mem.writeByte a b with
  | .error e => .fault (memFault e s)
  | .ok m => .next (setMem s m)

/-- `MemRead(a, n)` (R67). -/
def memRead (s : State) (a : Address) (n : Nat) : Result (BitVec (8 * n)) :=
  match s.mem.read a n with
  | .error e => .fault (memFault e s)
  | .ok v => .next v

/-- `MemWrite(a, n, v)` (R68): the written prefix stays in the state a fault leaves. -/
def memWrite (s : State) (a : Address) (n : Nat) (v : BitVec (8 * n)) : Result State :=
  match s.mem.write a n v with
  | (m, none) => .next (setMem s m)
  | (m, some e) => .fault (memFault e (setMem s m))

/-! ### Fetch (R131) -/

/-- The fetched word latched and `PC` advanced by the consumed width (R26, R27, R131). -/
def latch (s : State) (w : Word) : State := { s with ir := w, pc := s.pc + 16 }

/-- `Fetch()` (R131): the overflow check, the 16-byte read at `PC`, then `IR` and `PC`. The word is in
`IR` of the state answered. -/
def fetch (s : State) : Result State :=
  if Config.maxAddress < s.pc.toNat + 16 then .fault (.programCounterOverflow s)
  else andThen (memRead s s.pc 16) fun w => .next (latch s w)

/-! ### Placing a word (for State.withFetchWord) -/

/-- The device at `base` with a run of bytes from global address `x`, grown where it does not reach. -/
def devicePlace (d : Device) (base x : Nat) (bs : List Byte) : Device :=
  deviceFill { d with size := max d.size (x + bs.length - base) } x bs

/-- `s` with a word where its next fetch reads, and the run state in which it may step. Where no fetch
can succeed at `PC` (a segment that faults, an access that leaves its segment, `PC + 16` above the
highest address), `PC` is set to `ROM_BASE` (log 26). -/
def placeWord (s : State) (w : Word) : State :=
  let p := s.pc.toNat
  let bs := leBytes w 16
  if Config.ramBase ≤ p ∧ p + 16 ≤ Config.maxAddress then
    { s with runState := .running
             mem := { s.mem with ram := devicePlace s.mem.ram Config.ramBase p bs } }
  else if Config.romBase ≤ p ∧ p + 15 ≤ Config.romLast then
    { s with runState := .running
             mem := { s.mem with rom := devicePlace s.mem.rom Config.romBase p bs } }
  else
    { s with runState := .running
             pc := BitVec.ofNat 64 Config.romBase
             mem := { s.mem with rom := devicePlace s.mem.rom Config.romBase Config.romBase bs } }

end Sys2Proof.Machine
end

