-- ==== Sys2Proof/Machine/Operands.lean ====
section
/-! DEFINITION. The operands of the instructions: the register file (10_state.md R20 to R25), the
decoded record's views (30_encoding.md R108), and the halves of a register. -/

namespace Sys2Proof.Machine

/-! ### General registers (R20) -/

/-- `G[i]`. -/
def getG (s : State) (i : Fin 26) : Word := s.g[i]

/-- `G[i] <- v`. -/
def setG (s : State) (i : Fin 26) (v : Word) : State := { s with g := s.g.set i v }

/-- The general register an index names, if it is 0 to 25 (R22). -/
def generalIndex (i : RegIndex) : Option (Fin 26) :=
  if h : i.toNat < 26 then some ⟨i.toNat, h⟩ else none

/-! ### Access by index (R24, R25) -/

/-- `x[i]` (R24). -/
def readReg (s : State) (i : RegIndex) : Result Word :=
  match generalIndex i with
  | some k => .next (getG s k)
  | none =>
    if i = s.cfg.idxZero then .next 0
    else if i = s.cfg.idxOne then .next 1
    else if i = s.cfg.idxTwo then .next 2
    else .fault (.invalidRegister i s)

/-- `Writable(i)` (R25): the general register to write, or the fault. -/
def writable (s : State) (i : RegIndex) : Result (Fin 26) :=
  match generalIndex i with
  | some k => .next k
  | none =>
    if i = s.cfg.idxZero ∨ i = s.cfg.idxOne ∨ i = s.cfg.idxTwo then
      .fault (.writeToReadOnlyRegister i s)
    else .fault (.invalidRegister i s)

/-- `x[i] <- v` (R25). -/
def writeReg (s : State) (i : RegIndex) (v : Word) : Result State :=
  andThen (writable s i) fun k => .next (setG s k v)

/-! ### Views of the decoded record (R108) -/

/-- `register` of `SetLo`, `SetHi`, `Load`, `Store`: the `target_register` field. -/
def registerOf (f : Fields) : RegIndex := f.target

/-- `immediate` of `SetLo` and `SetHi`: used as it is. -/
def immediateOf (f : Fields) : Half := f.immediate

/-- `address` of `Load` and `Store`: the `immediate` field, absolute (D5). -/
def addressOf (f : Fields) : Address := f.immediate

/-! ### Halves of a register (R160, R161) -/

/-- `v[127:64] ++ imm`: the low half replaced. -/
def withLow (v : Word) (imm : Half) : Word := v.extractLsb' 64 64 ++ imm

/-- `imm ++ v[63:0]`: the high half replaced. -/
def withHigh (v : Word) (imm : Half) : Word := imm ++ v.extractLsb' 0 64

end Sys2Proof.Machine
end

