-- ==== Sys2Proof/Machine/LoadStore.lean ====
section
/-! DEFINITION. The memory instructions (43_load_store.md). -/

namespace Sys2Proof.Machine

/-- `LOAD` (R170): the register check, the 16-byte read, then the register write. -/
def execLoad (f : Fields) (s : State) : Result State :=
  andThen (writable s (registerOf f)) fun t =>
    andThen (memRead s (addressOf f) 16) fun v => .next (setG s t v)

/-- `STORE` (R171): the register read, then the 16-byte write, not atomic. -/
def execStore (f : Fields) (s : State) : Result State :=
  andThen (readReg s (registerOf f)) fun v => memWrite s (addressOf f) 16 v

end Sys2Proof.Machine
end

