-- ==== Sys2Proof/Machine/Null.lean ====
section
/-! DEFINITION. The Null instruction (41_null.md). -/

namespace Sys2Proof.Machine

/-- `NULL` (R150): no state change; no field is looked at. -/
def execNull (_f : Fields) (s : State) : Result State := .next s

end Sys2Proof.Machine
end

