-- ==== Sys2Proof/Machine/SetImmediate.lean ====
section
/-! DEFINITION. The set-immediate instructions (42_set_immediate.md). -/

namespace Sys2Proof.Machine

/-- `SETLO` (R160): the register check, then the low 64 bits replaced. -/
def execSetLo (f : Fields) (s : State) : Result State :=
  andThen (writable s (registerOf f)) fun t =>
    .next (setG s t (withLow (getG s t) (immediateOf f)))

/-- `SETHI` (R161): the register check, then the high 64 bits replaced. -/
def execSetHi (f : Fields) (s : State) : Result State :=
  andThen (writable s (registerOf f)) fun t =>
    .next (setG s t (withHigh (getG s t) (immediateOf f)))

end Sys2Proof.Machine
end

