-- ==== Sys2Proof/Machine/Dispatch.lean ====
section
/-! DEFINITION. `Execute(ins)` (40_step_engine.md R133): one arm per variant, no default arm. -/

namespace Sys2Proof.Machine

def exec (i : Instr) (s : State) : Host.Outcome State Fault Refusal :=
  match i with
  | .null f => Sys2Proof.Machine.execNull f s
  | .setLo f => Sys2Proof.Machine.execSetLo f s
  | .setHi f => Sys2Proof.Machine.execSetHi f s
  | .load f => Sys2Proof.Machine.execLoad f s
  | .store f => Sys2Proof.Machine.execStore f s

end Sys2Proof.Machine
end

