-- ==== Sys2Proof/Machine/Engine.lean ====
section
/-! DEFINITION. One step with the cost it returns (40_step_engine.md R130, R134). -/

namespace Sys2Proof.Machine

/-- `Step()` (R130): fetch, decode, execute, and the cost `CYCLES[ins]`. Refused before the first reset
(R35). An invalid opcode faults with `PC` and `IR` as fetch left them (R135, R202). -/
def stepWithCost (s : State) : Result (State × Nat) :=
  match s.runState with
  | .uninitialized => .refused .uninitialized
  | .running =>
    andThen (fetch s) fun s₁ =>
      match decode s₁.ir with
      | .error (.invalidOpCode op) => .fault (.invalidOpCode op s₁)
      | .ok i => andThen (exec i s₁) fun s₂ => .next (s₂, s.cfg.cycles.cost i)

end Sys2Proof.Machine
end

