-- ==== Sys2Proof/Machine/Step.lean ====
section
/-! DEFINITION. The step as Host/Core.lean has it, and where the host places a word to be fetched. -/

namespace Sys2Proof.Machine

/-- `Step()` (R130) without the cost it returns. -/
def step (s : State) : Host.Outcome State Fault Refusal :=
  andThen (stepWithCost s) fun r => .next r.1

/-- `s` with the instruction whose bits are `w` where the next step fetches (logs 4 and 26): every bit
at `nbits` and above is 0. It stands for the host's building of the ROM image (R245, R246). -/
def State.withFetchWord (s : State) (nbits w : Nat) : State :=
  placeWord s (BitVec.ofNat 128 (w % 2 ^ nbits))

end Sys2Proof.Machine
end

