-- ==== Sys2Proof/Machine/Flags.lean ====
section
/-! DEFINITION. The status flags (10_state.md R31). No instruction sets, clears or tests one, so there
is no flag computation; reset clears all seven. -/

namespace Sys2Proof.Machine

/-- The flags after reset (R39, R240). -/
def flagsCleared : Flags :=
  { c := false, z := false, i := false, d := false, b := false, v := false, n := false }

end Sys2Proof.Machine
end

