-- ==== Sys2Proof/Machine/Pacer.lean ====
section
/-! DEFINITION. The clock pacer and the free-running loop (45_clock_pacer.md, 40_step_engine.md R137).
Wall-clock time is an input, in seconds (log 23). -/

namespace Sys2Proof.Machine

/-- The state with another pacer. -/
def setPacer (s : State) (p : Pacer) : State := { s with pacer := p }

/-- `PERIOD`, the fixed per-cycle duration (R191). -/
def period (p : Pacer) : Rat := 1 / p.clockHz

/-- Has the elapsed time crossed the period (R192)? At exactly one period the grant policy decides
(log 10). -/
def crossed (p : Pacer) (now : Rat) : Bool :=
  decide (period p < now - p.lastGrant) ||
    (decide (now - p.lastGrant = period p) && Config.grantAtPeriod)

/-- `Poll(now)` (R192): at most one tick; what a grant leaves in `last_grant` is the grant policy's
(log 10). Refused for a frequency that is not positive, which has no period (R191; log 2). -/
def poll (now : Rat) (s : State) : Result (State × Bool) :=
  if 0 < s.pacer.clockHz then
    if crossed s.pacer now then
      .next (setPacer s
          { s.pacer with lastGrant := Config.nextLastGrant s.pacer.lastGrant now (period s.pacer) },
        true)
    else .next (s, false)
  else .refused .clockNotPositive

/-- What one granted tick does (R193): issue when nothing is owed, then pay one cycle. -/
def tick (s : State) : Result State :=
  if s.pacer.owed = 0 then
    andThen (stepWithCost s) fun r =>
      .next (setPacer r.1 { r.1.pacer with owed := r.2 - 1 })
  else .next (setPacer s { s.pacer with owed := s.pacer.owed - 1 })

/-- What `n` granted ticks in a row do (R194). -/
def ticks : Nat → State → Result State
  | 0, s => .next s
  | n + 1, s => andThen (tick s) (ticks n)

/-- `RunIteration(now)` (R193). DESIGN CHOICE (log 2): D22 refuses `Run` before the first reset and does
not name one iteration of its loop; the model refuses that too. Safe. -/
def runIteration (now : Rat) (s : State) : Result State :=
  match s.runState with
  | .uninitialized => .refused .uninitialized
  | .running => andThen (poll now s) fun r => if r.2 then tick r.1 else .next r.1

/-- The start of `Run(CLOCK_HZ)`: refused before the first reset (D22) and for a frequency that is not
positive (R191); nothing is owed (R193); `last_grant` before the first grant is the grant policy's. -/
def startRun (hz : Rat) (s : State) : Result State :=
  match s.runState with
  | .uninitialized => .refused .uninitialized
  | .running =>
    if 0 < hz then
      .next (setPacer s { s.pacer with
        owed := 0, clockHz := hz, lastGrant := Config.firstLastGrant hz })
    else .refused .clockNotPositive

/-- The loop of `Run` over the times of its first polls (R137): the loop itself never ends but by a
fault. -/
def runLoop : List Rat → State → Result State
  | [], s => .next s
  | now :: times, s => andThen (runIteration now s) (runLoop times)

/-- `Run(CLOCK_HZ)` as far as the polls at the given times (R137; log 29). The list may end before a
fault: DESIGN CHOICE (log 32), an external interruption (R253) falls between two iterations. -/
def run (hz : Rat) (times : List Rat) (s : State) : Result State :=
  andThen (startRun hz s) (runLoop times)

end Sys2Proof.Machine
end

