-- ==== Sys2Proof/Machine/Stack.lean ====
section
/-! DEFINITION. The stack micro-operations (44_stack_primitives.md): operations of the register file
that a testbench may call (R186); no opcode reaches them. -/

namespace Sys2Proof.Machine

/-- `SP[7:0]` (R28). -/
def spLow (s : State) : BitVec 8 := s.sp.extractLsb' 0 8

/-- `StackAddress()` (R180). -/
def stackAddress (s : State) : Address :=
  (s.cfg.stackHigh.zeroExtend 64 <<< 8) ||| (spLow s).zeroExtend 64

/-- `SP <- v`. -/
def setSp (s : State) (v : Half) : State := { s with sp := v }

/-- `Push(b)` (R181): write, overflow check, increment; a push at 0xFF has written its byte (D17). -/
def push (b : Byte) (s : State) : Result State :=
  andThen (writeByte s (stackAddress s) b) fun s₁ =>
    if spLow s₁ = 0xFF then .fault (.stackOverflow s₁)
    else .next (setSp s₁ (s₁.sp + 1))

/-- `Pull()` (R182): underflow check, decrement, read; the decrement stays if the read faults (D17). -/
def pull (s : State) : Result (State × Byte) :=
  if spLow s = 0 then .fault (.stackUnderflow s)
  else
    let s₁ := setSp s (s.sp - 1)
    andThen (readByte s₁ (stackAddress s₁)) fun b => .next (s₁, b)

/-- `PushWord(w)` (R184): the low byte first. -/
def pushWord (w : BitVec 16) (s : State) : Result State :=
  andThen (push (w.extractLsb' 0 8) s) fun s₁ => push (w.extractLsb' 8 8) s₁

/-- `PullWord()` (R185): the high byte first. -/
def pullWord (s : State) : Result (State × BitVec 16) :=
  andThen (pull s) fun hi => andThen (pull hi.1) fun lo => .next (lo.1, hi.2 ++ lo.2)

/-- Push a run of bytes, the first of the list first (R187). -/
def pushAll : List Byte → State → Result State
  | [], s => .next s
  | b :: bs, s => andThen (push b s) (pushAll bs)

/-- Pull `n` bytes, in the order they come (R187). -/
def pullAll : Nat → State → Result (State × List Byte)
  | 0, s => .next (s, [])
  | n + 1, s =>
    andThen (pull s) fun r => andThen (pullAll n r.1) fun q => .next (q.1, r.2 :: q.2)

end Sys2Proof.Machine
end

