-- ==== Sys2Proof/Machine/HostOps.lean ====
section
/-! DEFINITION. What the host can do between steps: construct the core and reset it
(70_reset_and_hazards.md R240, R245), and the closed list of its calls (40_step_engine.md R136, R139;
44_stack_primitives.md R186). -/

namespace Sys2Proof.Machine

/-- `Reset()` (R240): every piece of mutable state but the pacer's `last_grant` and smoothing buffer
(R243). -/
def reset (s : State) : State :=
  { s with
    pc := s.cfg.entry
    g := Vector.replicate 26 0
    sp := 0
    fp := 0
    ra := 0
    flags := flagsCleared
    ir := 0
    mem := s.mem.zero
    pacer := { s.pacer with owed := 0 }
    runState := .running }

/-- The core as construction leaves it (R245): ROM is the image, RAM has its size and unspecified content,
every register is unspecified and the run state is Uninitialized (R40; log 13). -/
def powerOn (image : List Byte) (ramSize : Nat) (clockHz : Rat) (smoothCap : Nat) (cfg : Params) :
    State :=
  { g := Vector.ofFn fun i => Config.powerOnWord i.val
    pc := Config.powerOnHalf 0
    ir := Config.powerOnWord 26
    sp := Config.powerOnHalf 1
    fp := Config.powerOnHalf 2
    ra := Config.powerOnHalf 3
    flags := { c := Config.powerOnFlag 0, z := Config.powerOnFlag 1, i := Config.powerOnFlag 2
               d := Config.powerOnFlag 3, b := Config.powerOnFlag 4, v := Config.powerOnFlag 5
               n := Config.powerOnFlag 6 }
    mem := { rom := deviceOf Config.romBase image
             ram := deviceOf Config.ramBase ((List.range ramSize).map Config.powerOnRam) }
    runState := .uninitialized
    pacer := { owed := Config.powerOnOwed, lastGrant := Config.firstLastGrant clockHz
               smoothing := [], clockHz := clockHz, smoothCap := smoothCap }
    cfg := cfg }

/-- Construction (R245): refused for a frequency that is not positive (R5, R191; log 2). -/
def construct (image : List Byte) (ramSize : Nat) (clockHz : Rat) (smoothCap : Nat) (cfg : Params) :
    Result State :=
  if 0 < clockHz then .next (powerOn image ramSize clockHz smoothCap cfg)
  else .refused .clockNotPositive

/-- What the diagnostic dump renders: "CPU/memory state" (R218), its register and status state among it
(R225). Its text has no format. That the run state is shown and the pacer and the parameters are not is a
DESIGN CHOICE (log 33), unsafe for a claim about what the dump shows, no other. -/
structure DumpView where
  g        : Vector Word 26
  pc       : Address
  ir       : Word
  sp       : Half
  fp       : Half
  ra       : Half
  flags    : Flags
  runState : RunState
  mem      : Memory
deriving DecidableEq, Repr

/-- The dump (R218, R225): it reads state and changes none. -/
def dump (s : State) : DumpView :=
  { g := s.g, pc := s.pc, ir := s.ir, sp := s.sp, fp := s.fp, ra := s.ra, flags := s.flags
    runState := s.runState, mem := s.mem }

/-- The calls of the host and of a testbench (R136, R139, R186). -/
inductive HostCall where
  /-- `Reset()` (R240). -/
  | reset
  /-- `Step()` (R130). -/
  | step
  /-- `Run(CLOCK_HZ)` (R137), ended by its first fault or interrupted from outside after the polls at the
  given times (R253; DESIGN CHOICE, log 32). -/
  | run (hz : Rat) (times : List Rat)
  /-- `Push(b)` (R181). -/
  | push (b : Byte)
  /-- `Pull()` (R182). -/
  | pull
  /-- `PushWord(w)` (R184). -/
  | pushWord (w : BitVec 16)
  /-- `PullWord()` (R185). -/
  | pullWord
  /-- The diagnostic dump (R218, R225). -/
  | dump
deriving DecidableEq, Repr

/-- The state an operation leaves, whatever it answers: after a fault the host goes on from the state
it left (R139); a refused call changes nothing. -/
def stateAfter (s : State) (r : Result State) : State :=
  match r with
  | .next t => t
  | .fault f => resume f
  | .refused _ => s

/-- The state of the core after one call (R139). The host has `Run` as a whole only (R136, D35): no call
makes one iteration by itself. An interrupted `Run` leaves the state its last iteration left, and the
host's next call may be any of these: DESIGN CHOICE (log 32). -/
def hostCall (c : HostCall) (s : State) : State :=
  match c with
  | .reset => reset s
  | .step => stateAfter s (step s)
  | .run hz times => stateAfter s (run hz times s)
  | .push b => stateAfter s (push b s)
  | .pull => stateAfter s (andThen (pull s) fun r => .next r.1)
  | .pushWord w => stateAfter s (pushWord w s)
  | .pullWord => stateAfter s (andThen (pullWord s) fun r => .next r.1)
  | .dump => s

/-- The state after a run of calls, the first of the list first. -/
def hostCalls : List HostCall → State → State
  | [], s => s
  | c :: cs, s => hostCalls cs (hostCall c s)

end Sys2Proof.Machine
end

