-- ==== Sys2Proof/Safety.lean ====
section
/-! DEFINITION. The terms claims are stated in: where an access can complete, what a step can leave,
which states the host can bring the core to, and the invariant of those states. -/

namespace Sys2Proof.Machine

/-- The `n` bytes from `a` upward lie in the ROM segment and in the ROM device (R61, R63). -/
abbrev RomRange (m : Memory) (a : Address) (n : Nat) : Prop :=
  Config.romBase ≤ a.toNat ∧ a.toNat + n ≤ Config.romBase + m.rom.size ∧
    a.toNat + n ≤ Config.romLast + 1

/-- The `n` bytes from `a` upward lie in the RAM segment and in the RAM device (R61, R63, R64). -/
abbrev RamRange (m : Memory) (a : Address) (n : Nat) : Prop :=
  Config.ramBase ≤ a.toNat ∧ a.toNat + n ≤ Config.ramBase + m.ram.size ∧
    a.toNat + n ≤ Config.maxAddress + 1

/-- What one step can leave: its next state, or the state from which the host goes on after its fault
(R135, R139). -/
def StepLeaves (s t : State) : Prop :=
  step s = .next t ∨ ∃ f, step s = .fault f ∧ resume f = t

/-- `k` steps, ending at the first fault or refusal (R136). -/
def steps : Nat → State → Result State
  | 0, s => .next s
  | k + 1, s => andThen (step s) (steps k)

/-- The two states agree on everything but the pacer, which no architectural rule reads (R196). -/
def SameButPacer (s t : State) : Prop := { s with pacer := t.pacer } = t

/-- The host has constructed the core with legal parameters, reset it, and made some calls. -/
def Reachable (s : State) : Prop :=
  ∃ image ramSize clockHz smoothCap cfg s₀ calls, cfg.wf ∧
    construct image ramSize clockHz smoothCap cfg = .next s₀ ∧ s = hostCalls calls (reset s₀)

/-- What holds of every state the host can bring the core to. -/
structure Inv (s : State) : Prop where
  /-- The devices are in canonical form. -/
  memory : s.mem.wf
  /-- The parameters are legal (R5, R21, D19). -/
  params : s.cfg.wf
  /-- The frequency is positive (R5, R191). -/
  clock : 0 < s.pacer.clockHz
  /-- A fault does not change the run state (R35). -/
  running : s.runState = .running
  /-- No operation writes a flag after reset (R31). -/
  flags : s.flags = flagsCleared
  /-- No operation writes FP after reset (R29). -/
  fp : s.fp = 0
  /-- No operation writes RA after reset (R30). -/
  ra : s.ra = 0
  /-- `0x00 <= SP <= 0xFF` (R183). -/
  sp : s.sp.toNat ≤ 0xFF
  /-- `PC` starts at ENTRY and only grows (R140). -/
  pcFrom : s.cfg.entry.toNat ≤ s.pc.toNat
  /-- `PC` keeps the alignment of ENTRY (R251). -/
  pcAligned : s.pc.toNat % 16 = s.cfg.entry.toNat % 16

end Sys2Proof.Machine
end

