-- ==== Sys2Proof/Certificates/Slice0/Obligations.lean ====
section
/-! DEFINITION. The statements for the provers, from the numbered rules of spec/. Numbers are written out as
the spec prints them. A docstring names the rule a statement formalises, and the spec's own decision
(D<n> of 92_eei_decisions.md) or the log entry where it rests on one. -/

open Sys2Proof Sys2Proof.Machine

/-! ### Encoding (30_encoding.md) -/

/-- R105, R110: decoding the word of a well-formed instruction gives it back, every field at every value. -/
def Obligations.DecodeEncodeRoundTrip : Prop :=
  ∀ i : Instr, i.wellFormed = true → decode (encode i) = .ok i

/-- R110: `Encode` places each field at its bits and is the inverse of field extraction; the decoded
instruction keeps all seven fields, and encoding what was decoded gives the word back. -/
def Obligations.EncodeDecodeRoundTrip : Prop :=
  (∀ f : Fields, (encodeFields f).toNat =
    f.opcode.toNat * 2 ^ 112 + f.operandA.toNat * 2 ^ 104 + f.operandB.toNat * 2 ^ 96 +
      f.target.toNat * 2 ^ 88 + f.shiftAmount.toNat * 2 ^ 80 + f.reserved.toNat * 2 ^ 64 +
      f.immediate.toNat) ∧
  (∀ f, fieldsOf (encodeFields f) = f) ∧ (∀ w, encodeFields (fieldsOf w) = w) ∧
  ∀ w i, decode w = .ok i → i.fields = fieldsOf w ∧ encode i = w

/-- R105: `Decode` is total; the five opcodes give the five variants on the word's seven fields, whatever
the other fields hold, and any other opcode is `InvalidOpCode` with the raw value. -/
def Obligations.DecodeIsTotalByOpcode : Prop :=
  ∀ w : Word,
    (w.extractLsb' 112 16 = 0x0000 → decode w = .ok (.null (fieldsOf w))) ∧
    (w.extractLsb' 112 16 = 0xF010 → decode w = .ok (.setLo (fieldsOf w))) ∧
    (w.extractLsb' 112 16 = 0xF011 → decode w = .ok (.setHi (fieldsOf w))) ∧
    (w.extractLsb' 112 16 = 0xF013 → decode w = .ok (.load (fieldsOf w))) ∧
    (w.extractLsb' 112 16 = 0xF020 → decode w = .ok (.store (fieldsOf w))) ∧
    (w.extractLsb' 112 16 ∉ [(0x0000 : BitVec 16), 0xF010, 0xF011, 0xF013, 0xF020] →
      decode w = .error (.invalidOpCode (w.extractLsb' 112 16)))

/-- R104: each variant is exactly the words its row's mask and match select, no other bit matters, and any
other opcode value is invalid. -/
def Obligations.DecodeFollowsMaskAndMatch : Prop :=
  ∀ w : Word,
    ((∃ f, decode w = .ok (.null f)) ↔ w &&& (0xFFFF <<< 112) = 0) ∧
    ((∃ f, decode w = .ok (.setLo f)) ↔ w &&& (0xFFFF <<< 112) = 0xF010 <<< 112) ∧
    ((∃ f, decode w = .ok (.setHi f)) ↔ w &&& (0xFFFF <<< 112) = 0xF011 <<< 112) ∧
    ((∃ f, decode w = .ok (.load f)) ↔ w &&& (0xFFFF <<< 112) = 0xF013 <<< 112) ∧
    ((∃ f, decode w = .ok (.store f)) ↔ w &&& (0xFFFF <<< 112) = 0xF020 <<< 112) ∧
    ((∃ e, decode w = .error e) ↔
      w.extractLsb' 112 16 ∉ [(0x0000 : BitVec 16), 0xF010, 0xF011, 0xF013, 0xF020])

/-- R102: each field is its shift and mask, and no field's content reaches another field. -/
def Obligations.FieldsAreIsolated : Prop :=
  (∀ w : Word,
    (fieldsOf w).opcode.toNat = w.toNat / 2 ^ 112 % 2 ^ 16 ∧
    (fieldsOf w).operandA.toNat = w.toNat / 2 ^ 104 % 2 ^ 8 ∧
    (fieldsOf w).operandB.toNat = w.toNat / 2 ^ 96 % 2 ^ 8 ∧
    (fieldsOf w).target.toNat = w.toNat / 2 ^ 88 % 2 ^ 8 ∧
    (fieldsOf w).shiftAmount.toNat = w.toNat / 2 ^ 80 % 2 ^ 8 ∧
    (fieldsOf w).reserved.toNat = w.toNat / 2 ^ 64 % 2 ^ 16 ∧
    (fieldsOf w).immediate.toNat = w.toNat % 2 ^ 64) ∧
  ∀ f : Fields, fieldsOf (encodeFields f) = f

/-- 95_test_vectors.md V1, V4 to V8: a few words written out from the encoding decode to their
instructions. -/
def Obligations.SampleWordsDecode : Prop :=
  decode 0x00000000000000000000000000000000 = .ok (.null ⟨0x0000, 0, 0, 0, 0, 0, 0⟩) ∧
  decode 0xF010FFFF05FFFFFF0000000000001234 = .ok (.setLo ⟨0xF010, 0xFF, 0xFF, 5, 0xFF, 0xFFFF, 0x1234⟩) ∧
  decode 0xF011000005000000000000000000ABCD = .ok (.setHi ⟨0xF011, 0, 0, 5, 0, 0, 0xABCD⟩) ∧
  decode 0xF0130000020000000000000300000000 = .ok (.load ⟨0xF013, 0, 0, 2, 0, 0, 0x300000000⟩) ∧
  decode 0xF0200000010000000000000300000000 = .ok (.store ⟨0xF020, 0, 0, 1, 0, 0, 0x300000000⟩) ∧
  decode 0xF0120000050000000000000000000077 = .error (.invalidOpCode 0xF012)

/-- R103: where the fields of the word read from address `a` lie in memory, byte by byte. -/
def Obligations.WordLayoutInMemory : Prop :=
  ∀ (m : Memory) (a : Address) (w : Word), m.read a 16 = .ok w →
    (∀ i < 8, m.readByte (a + BitVec.ofNat 64 i) = .ok ((fieldsOf w).immediate.extractLsb' (8 * i) 8)) ∧
    m.readByte (a + 8) = .ok ((fieldsOf w).reserved.extractLsb' 0 8) ∧
    m.readByte (a + 9) = .ok ((fieldsOf w).reserved.extractLsb' 8 8) ∧
    m.readByte (a + 10) = .ok (fieldsOf w).shiftAmount ∧
    m.readByte (a + 11) = .ok (fieldsOf w).target ∧
    m.readByte (a + 12) = .ok (fieldsOf w).operandB ∧
    m.readByte (a + 13) = .ok (fieldsOf w).operandA ∧
    m.readByte (a + 14) = .ok ((fieldsOf w).opcode.extractLsb' 0 8) ∧
    m.readByte (a + 15) = .ok ((fieldsOf w).opcode.extractLsb' 8 8)

/-! ### The MMU (20_memory.md) -/

/-- R63: `ReadByte` by segment; every fault carries the global address and leaves the state as it was. -/
def Obligations.ReadByteBySegment : Prop :=
  ∀ (s : State) (a : Address),
    (a.toNat ≤ 0xF → readByte s a = .fault (.nullAddress a s)) ∧
    (0x10 ≤ a.toNat ∧ a.toNat ≤ 0xFFFFF → readByte s a = .fault (.reservedAddress a s)) ∧
    (∀ o, a.toNat = 0x100000 + o → a.toNat ≤ 0x1FFFFFFFF → readByte s a =
      if o < s.mem.rom.size then .next (romByte s.mem o) else .fault (.invalidAddress a s)) ∧
    (0x200000000 ≤ a.toNat ∧ a.toNat ≤ 0x2FFFFFFFF → readByte s a = .fault (.reservedAddress a s)) ∧
    ∀ o, a.toNat = 0x300000000 + o → readByte s a =
      if o < s.mem.ram.size then .next (ramByte s.mem o) else .fault (.invalidAddress a s)

/-- R64: `WriteByte` by segment; that the whole ROM segment is read-only is the spec's decision D12. A
write that completes changes that one byte of RAM. -/
def Obligations.WriteByteBySegment : Prop :=
  ∀ (s : State) (a : Address) (b : Byte),
    (a.toNat ≤ 0xF → writeByte s a b = .fault (.nullAddress a s)) ∧
    (0x10 ≤ a.toNat ∧ a.toNat ≤ 0xFFFFF → writeByte s a b = .fault (.reservedAddress a s)) ∧
    (0x100000 ≤ a.toNat ∧ a.toNat ≤ 0x1FFFFFFFF →
      writeByte s a b = .fault (.writeToReadOnlyAddress a s)) ∧
    (0x200000000 ≤ a.toNat ∧ a.toNat ≤ 0x2FFFFFFFF → writeByte s a b = .fault (.reservedAddress a s)) ∧
    ∀ o, a.toNat = 0x300000000 + o →
      (s.mem.ram.size ≤ o → writeByte s a b = .fault (.invalidAddress a s)) ∧
      (o < s.mem.ram.size → ∃ m, writeByte s a b = .next { s with mem := m } ∧ m.rom = s.mem.rom ∧
        m.ram.size = s.mem.ram.size ∧ ∀ p, ramByte m p = if p = o then b else ramByte s.mem p)

/-- R67: `MemRead` completes exactly when every byte can be read, and its value has byte `i` at bits
`8i+7` to `8i`; it fails exactly with the error of its first failing byte. That reads walk upward with the
overflow check is the spec's decision D11. -/
def Obligations.MemReadByBytes : Prop :=
  ∀ (m : Memory) (a : Address) (n : Nat),
    (∀ v : BitVec (8 * n), m.read a n = .ok v ↔
      ∀ i < n, a.toNat + i ≤ 0xFFFFFFFFFFFFFFFF ∧
        m.readByte (BitVec.ofNat 64 (a.toNat + i)) = .ok (v.extractLsb' (8 * i) 8)) ∧
    (∀ e, m.read a n = .error e ↔
      ∃ k < n, (∀ i < k, a.toNat + i ≤ 0xFFFFFFFFFFFFFFFF ∧
          ∃ b, m.readByte (BitVec.ofNat 64 (a.toNat + i)) = .ok b) ∧
        ((0xFFFFFFFFFFFFFFFF < a.toNat + k ∧ e = .memoryOverflow) ∨
          (a.toNat + k ≤ 0xFFFFFFFFFFFFFFFF ∧
            m.readByte (BitVec.ofNat 64 (a.toNat + k)) = .error e)))

/-- R68: `MemWrite` that completes has written its `n` bytes; one that faults has written exactly the
prefix before its first failing byte; nothing else changes either way. That the walk is upward with the
check before each byte is the spec's decision D11. -/
def Obligations.MemWriteByBytes : Prop :=
  ∀ (s : State) (a : Address) (n : Nat) (v : BitVec (8 * n)),
    (∀ t, memWrite s a n v = .next t →
      { t with mem := s.mem } = s ∧
      ∀ x : Address, t.mem.readByte x =
        if a.toNat ≤ x.toNat ∧ x.toNat < a.toNat + n then
          .ok (v.extractLsb' (8 * (x.toNat - a.toNat)) 8) else s.mem.readByte x) ∧
    (∀ f, memWrite s a n v = .fault f →
      { resume f with mem := s.mem } = s ∧
      ∃ k < n,
        (∀ x : Address, (resume f).mem.readByte x =
          if a.toNat ≤ x.toNat ∧ x.toNat < a.toNat + k then
            .ok (v.extractLsb' (8 * (x.toNat - a.toNat)) 8) else s.mem.readByte x) ∧
        ((0xFFFFFFFFFFFFFFFF < a.toNat + k ∧ f = .memoryOverflow (resume f)) ∨
          (a.toNat + k ≤ 0xFFFFFFFFFFFFFFFF ∧ ∃ e, f = memFault e (resume f) ∧
            ∀ b, s.mem.writeByte (BitVec.ofNat 64 (a.toNat + k)) b = .error e)))

/-- R70: after a `MemWrite` that completes, `MemRead` of the same bytes gives the value back, and a narrow
read sees the value's byte at its address. -/
def Obligations.WrittenValueReadsBack : Prop :=
  ∀ (s t : State) (a : Address) (n : Nat) (v : BitVec (8 * n)), memWrite s a n v = .next t →
    memRead t a n = .next v ∧
    ∀ k < n, readByte t (a + BitVec.ofNat 64 k) = .next (v.extractLsb' (8 * k) 8)

/-- R73: an access whose first and last byte lie in different segments always fails, for reading and for
writing (D13: it is not refused as such, each byte is routed). -/
def Obligations.CrossingAccessFails : Prop :=
  ∀ (m : Memory) (a : Address) (n : Nat), a.toNat + n ≤ 0xFFFFFFFFFFFFFFFF →
    segment a ≠ segment (BitVec.ofNat 64 (a.toNat + n)) →
    (∃ e, m.read a (n + 1) = .error e) ∧
    ∀ v, ∃ e, (m.write a (n + 1) v).2 = some e

/-- R74: after `zero()` every RAM byte is 0 and ROM is unchanged; reset invokes it. -/
def Obligations.ZeroClearsRamOnly : Prop :=
  (∀ m : Memory, m.zero.rom = m.rom ∧ m.zero.ram.size = m.ram.size ∧
    (∀ o, ramByte m.zero o = 0) ∧ (∀ o, romByte m.zero o = romByte m o) ∧
    ∀ a : Address, 0x300000000 ≤ a.toNat → a.toNat < 0x300000000 + m.ram.size →
      m.zero.readByte a = .ok 0) ∧
  ∀ s, (reset s).mem = s.mem.zero

/-! ### Registers (10_state.md) -/

/-- R20: a general register reads as it was last written; no write to one reaches another or any other
part of the state. -/
def Obligations.GeneralRegistersAreIndependent : Prop :=
  ∀ (s : State) (i : RegIndex) (v : Word), i.toNat ≤ 25 →
    ∃ t, writeReg s i v = .next t ∧ readReg t i = .next v ∧ { t with g := s.g } = s ∧
      ∀ j : RegIndex, j.toNat ≤ 25 → j ≠ i → ∃ w, readReg s j = .next w ∧ readReg t j = .next w

/-- R24, with the constant registers at the indices of the parameters: reading by index class. That a
constant register has an index and that the fault is `InvalidRegister` are the spec's decisions D1, D3. -/
def Obligations.RegisterReadByClass : Prop :=
  ∀ (s : State), s.cfg.wf →
    (∀ k : Fin 26, readReg s (BitVec.ofNat 8 k) = .next s.g[k]) ∧
    readReg s s.cfg.idxZero = .next 0 ∧
    readReg s s.cfg.idxOne = .next 1 ∧
    readReg s s.cfg.idxTwo = .next 2 ∧
    ∀ i : RegIndex, 26 ≤ i.toNat → i ≠ s.cfg.idxZero → i ≠ s.cfg.idxOne → i ≠ s.cfg.idxTwo →
      readReg s i = .fault (.invalidRegister i s)

/-- R25, with the constant registers at the indices of the parameters: writing by index class. The
indices and the fault names are the spec's decisions D1, D3, D4. -/
def Obligations.RegisterWriteByClass : Prop :=
  ∀ (s : State) (v : Word), s.cfg.wf →
    (∀ k : Fin 26, writeReg s (BitVec.ofNat 8 k) v = .next { s with g := s.g.set k v }) ∧
    (∀ i ∈ [s.cfg.idxZero, s.cfg.idxOne, s.cfg.idxTwo],
      writeReg s i v = .fault (.writeToReadOnlyRegister i s)) ∧
    ∀ i : RegIndex, 26 ≤ i.toNat → i ≠ s.cfg.idxZero → i ≠ s.cfg.idxOne → i ≠ s.cfg.idxTwo →
      writeReg s i v = .fault (.invalidRegister i s)

/-! ### The instructions (41 to 43) -/

/-- R150: `Null` changes nothing, whatever its other fields hold; its whole step is the fetch, and costs
`CYCLES[Null]`. -/
def Obligations.NullChangesNothing : Prop :=
  (∀ f s, exec (.null f) s = .next s) ∧
  (∀ w : Word, w.extractLsb' 112 16 = 0 → decode w = .ok (.null (fieldsOf w))) ∧
  ∀ (s : State) (w : Word), s.runState = .running → s.pc.toNat + 16 ≤ 0xFFFFFFFFFFFFFFFF →
    s.mem.read s.pc 16 = .ok w → w.extractLsb' 112 16 = 0 →
    stepWithCost s = .next ({ s with ir := w, pc := s.pc + 16 }, s.cfg.cycles.null)

/-- R160: `SetLo` on a general register completes; the low 64 bits are the immediate, the high 64 bits are
kept, nothing else changes. -/
def Obligations.SetLoReplacesLowHalf : Prop :=
  ∀ (s : State) (f : Fields) (t : Fin 26), f.target.toNat = t →
    ∃ v : Word, exec (.setLo f) s = .next { s with g := s.g.set t v } ∧
      v.extractLsb' 0 64 = f.immediate ∧ v.extractLsb' 64 64 = s.g[t].extractLsb' 64 64

/-- R161: `SetHi` on a general register completes; the high 64 bits are the immediate, the low 64 bits are
kept, nothing else changes. -/
def Obligations.SetHiReplacesHighHalf : Prop :=
  ∀ (s : State) (f : Fields) (t : Fin 26), f.target.toNat = t →
    ∃ v : Word, exec (.setHi f) s = .next { s with g := s.g.set t v } ∧
      v.extractLsb' 64 64 = f.immediate ∧ v.extractLsb' 0 64 = s.g[t].extractLsb' 0 64

/-- R160, R161: `SetLo` and `SetHi` on one register complete in either order and leave the same state, the
register `immHi ++ immLo`; a second `SetLo` with the same operands changes nothing. -/
def Obligations.SetLoSetHiBuildAnyConstant : Prop :=
  ∀ (s : State) (lo hi : Fields) (t : Fin 26), lo.target.toNat = t → hi.target.toNat = t →
    ∃ u, andThen (exec (.setLo lo) s) (exec (.setHi hi)) = .next u ∧
      andThen (exec (.setHi hi) s) (exec (.setLo lo)) = .next u ∧
      u = { s with g := s.g.set t (hi.immediate ++ lo.immediate) } ∧
      exec (.setLo lo) u = .next u ∧ exec (.setHi hi) u = .next u

/-- R160, R161, R170: `SetLo`, `SetHi` and `Load` on an index that is no general register fault with
nothing written and no memory read; the fault names and the place of the check are the spec's decisions
D3, D4, D7. -/
def Obligations.WritesToOtherIndicesFault : Prop :=
  ∀ (s : State) (f : Fields) (i : Instr), i ∈ [Instr.setLo f, Instr.setHi f, Instr.load f] →
    26 ≤ f.target.toNat →
    (f.target ∈ [s.cfg.idxZero, s.cfg.idxOne, s.cfg.idxTwo] →
      exec i s = .fault (.writeToReadOnlyRegister f.target s)) ∧
    (f.target ∉ [s.cfg.idxZero, s.cfg.idxOne, s.cfg.idxTwo] →
      exec i s = .fault (.invalidRegister f.target s))

/-- R170: `Load` into a general register from 16 bytes of ROM or of RAM completes, whatever the alignment;
byte `i` of the register is the byte at `addr + i`, nothing else changes. That `addr` is the immediate and
the width is 16 bytes are the spec's decisions D5, D8. -/
def Obligations.LoadReadsSixteenBytes : Prop :=
  ∀ (s : State) (f : Fields) (t : Fin 26), f.target.toNat = t →
    RomRange s.mem f.immediate 16 ∨ RamRange s.mem f.immediate 16 →
    ∃ v : Word, exec (.load f) s = .next { s with g := s.g.set t v } ∧
      ∀ i < 16, s.mem.readByte (f.immediate + BitVec.ofNat 64 i) = .ok (v.extractLsb' (8 * i) 8)

/-- R170: a `Load` into a general register whose bytes cannot all be read faults with the error of the
read and leaves the state as it was: the register is written only after all 16 bytes were read. -/
def Obligations.FailedLoadChangesNothing : Prop :=
  ∀ (s : State) (f : Fields) (e : MemError), f.target.toNat ≤ 25 →
    s.mem.read f.immediate 16 = .error e → exec (.load f) s = .fault (memFault e s)

/-- R171: `Store` of a general or constant register to 16 bytes of RAM completes, whatever the alignment;
byte `i` of the value is at `addr + i`, every other byte of memory and every other part of the state is
unchanged. That `addr` is the immediate and the width is 16 bytes are the spec's decisions D5, D8. -/
def Obligations.StoreWritesSixteenBytes : Prop :=
  ∀ (s : State) (f : Fields) (v : Word), readReg s f.target = .next v → RamRange s.mem f.immediate 16 →
    ∃ m, exec (.store f) s = .next { s with mem := m } ∧
      (∀ i < 16, m.readByte (f.immediate + BitVec.ofNat 64 i) = .ok (v.extractLsb' (8 * i) 8)) ∧
      ∀ x : Address, ¬(f.immediate.toNat ≤ x.toNat ∧ x.toNat < f.immediate.toNat + 16) →
        m.readByte x = s.mem.readByte x

/-- R171, R248: a `Store` that begins in the RAM device and does not fit writes the bytes that fit and then
faults at the first byte outside: `InvalidAddress`, or `MemoryOverflow` where the device reaches the
highest address. The 16-byte width is the spec's decision D8 and the upward walk D11. -/
def Obligations.StoreIsTornAtTheEndOfRam : Prop :=
  ∀ (s : State) (f : Fields) (v : Word), readReg s f.target = .next v →
    0x300000000 ≤ f.immediate.toNat → f.immediate.toNat < 0x300000000 + s.mem.ram.size →
    (0x300000000 + s.mem.ram.size ≤ 0xFFFFFFFFFFFFFFFF →
      0x300000000 + s.mem.ram.size < f.immediate.toNat + 16 →
      ∃ m, exec (.store f) s =
          .fault (.invalidAddress (BitVec.ofNat 64 (0x300000000 + s.mem.ram.size)) { s with mem := m }) ∧
        ∀ x : Address, m.readByte x =
          if f.immediate.toNat ≤ x.toNat ∧ x.toNat < 0x300000000 + s.mem.ram.size then
            .ok (v.extractLsb' (8 * (x.toNat - f.immediate.toNat)) 8) else s.mem.readByte x) ∧
    (0x10000000000000000 ≤ 0x300000000 + s.mem.ram.size →
      0x10000000000000000 < f.immediate.toNat + 16 →
      ∃ m, exec (.store f) s = .fault (.memoryOverflow { s with mem := m }) ∧
        ∀ x : Address, m.readByte x =
          if f.immediate.toNat ≤ x.toNat then
            .ok (v.extractLsb' (8 * (x.toNat - f.immediate.toNat)) 8) else s.mem.readByte x)

/-- R171: every other fault of `Store` is raised before anything is written: an invalid register first,
then the fault of byte 0. `InvalidRegister` and its place are the spec's decisions D3, D7, the fault for
the whole ROM segment D12. -/
def Obligations.StoreFaultsBeforeWriting : Prop :=
  ∀ (s : State) (f : Fields),
    (26 ≤ f.target.toNat → f.target ∉ [s.cfg.idxZero, s.cfg.idxOne, s.cfg.idxTwo] →
      exec (.store f) s = .fault (.invalidRegister f.target s)) ∧
    ∀ v, readReg s f.target = .next v →
      (f.immediate.toNat ≤ 0xF → exec (.store f) s = .fault (.nullAddress f.immediate s)) ∧
      (0x10 ≤ f.immediate.toNat ∧ f.immediate.toNat ≤ 0xFFFFF →
        exec (.store f) s = .fault (.reservedAddress f.immediate s)) ∧
      (0x100000 ≤ f.immediate.toNat ∧ f.immediate.toNat ≤ 0x1FFFFFFFF →
        exec (.store f) s = .fault (.writeToReadOnlyAddress f.immediate s)) ∧
      (0x200000000 ≤ f.immediate.toNat ∧ f.immediate.toNat ≤ 0x2FFFFFFFF →
        exec (.store f) s = .fault (.reservedAddress f.immediate s)) ∧
      (0x300000000 + s.mem.ram.size ≤ f.immediate.toNat → 0x300000000 ≤ f.immediate.toNat →
        exec (.store f) s = .fault (.invalidAddress f.immediate s))

/-- R170: loading into a register and storing it back unchanged leaves memory as it was, as data. -/
def Obligations.LoadThenStoreBackKeepsMemory : Prop :=
  ∀ (s t u : State) (f g : Fields), s.mem.wf → f.target = g.target → f.immediate = g.immediate →
    exec (.load f) s = .next t → exec (.store g) t = .next u → u.mem = s.mem

/-- R170, R171: loading from where a register was stored gives the register's value. -/
def Obligations.StoreThenLoadGivesTheValue : Prop :=
  ∀ (s t : State) (f g : Fields) (k : Fin 26) (v : Word), readReg s f.target = .next v →
    g.target.toNat = k → f.immediate = g.immediate → exec (.store f) s = .next t →
    exec (.load g) t = .next { t with g := t.g.set k v }

/-- R38: the frame of `SetLo`, `SetHi` and `Load`, which store nothing: every register but the target, and
everything else, is unchanged. -/
def Obligations.RegisterInstructionsFrame : Prop :=
  ∀ (s t : State) (f : Fields) (i : Instr), i ∈ [Instr.setLo f, Instr.setHi f, Instr.load f] →
    exec i s = .next t →
    { t with g := s.g } = s ∧
    (∀ k : Fin 26, f.target.toNat ≠ k → t.g[k] = s.g[k]) ∧
    ∀ x : Address, t.mem.readByte x = s.mem.readByte x

/-- R38: `Store` leaves every register, ROM and the sizes of the devices unchanged. R171: every byte of memory
but the 16 from the address stored to is unchanged; that the address is the immediate and the width 16
bytes are the spec's decisions D5, D8 (log 15). -/
def Obligations.StoreFrame : Prop :=
  ∀ (s t : State) (f : Fields) (a : Address), addressOf f = a → exec (.store f) s = .next t →
    { t with mem := s.mem } = s ∧ t.mem.rom = s.mem.rom ∧ t.mem.ram.size = s.mem.ram.size ∧
    ∀ x : Address, ¬(a.toNat ≤ x.toNat ∧ x.toNat < a.toNat + 16) → t.mem.readByte x = s.mem.readByte x

/-- R215: which faults each instruction can raise, and that none is refused. -/
def Obligations.FaultsByInstruction : Prop :=
  ∀ (s : State) (f : Fields) (r : Fault),
    exec (.null f) s ≠ .fault r ∧
    (exec (.setLo f) s = .fault r ∨ exec (.setHi f) s = .fault r →
      r = .invalidRegister f.target s ∨ r = .writeToReadOnlyRegister f.target s) ∧
    (exec (.load f) s = .fault r →
      r = .invalidRegister f.target s ∨ r = .writeToReadOnlyRegister f.target s ∨
        r = .memoryOverflow s ∨ ∃ a, r = .nullAddress a s ∨ r = .reservedAddress a s ∨
          r = .invalidAddress a s) ∧
    (exec (.store f) s = .fault r →
      r = .invalidRegister f.target s ∨ r = .memoryOverflow (resume r) ∨
        ∃ a, r = .nullAddress a (resume r) ∨ r = .reservedAddress a (resume r) ∨
          r = .invalidAddress a (resume r) ∨ r = .writeToReadOnlyAddress a (resume r)) ∧
    ∀ i q, exec i s ≠ .refused q

/-! ### The step (40_step_engine.md, 60_exceptions.md) -/

/-- R130: when the word at `PC` can be fetched and decodes to `i`, the step is `i` executed with `IR` holding
the word and `PC` advanced by 16, and the cost is `CYCLES[i]`. -/
def Obligations.StepRunsDecodedInstruction : Prop :=
  ∀ (s : State) (w : Word) (i : Instr), s.runState = .running →
    s.pc.toNat + 16 ≤ 0xFFFFFFFFFFFFFFFF → s.mem.read s.pc 16 = .ok w → decode w = .ok i →
    step s = exec i { s with ir := w, pc := s.pc + 16 } ∧
    stepWithCost s = andThen (exec i { s with ir := w, pc := s.pc + 16 })
      fun t => .next (t, s.cfg.cycles.cost i)

/-- R35, R191: before the first reset a step, the start of a run, a run and one iteration of its loop are
refused; a running core's step is never refused; a frequency that is not positive is refused by a run, by
an iteration and at construction. D22, D21 have it so; that a single iteration is refused like a run is
the model's choice (log 2). -/
def Obligations.RefusedBeforeReset : Prop :=
  (∀ s : State, s.runState = .uninitialized → step s = .refused .uninitialized ∧
    ∀ t : Rat, startRun t s = .refused .uninitialized ∧ runIteration t s = .refused .uninitialized ∧
      ∀ times, run t times s = .refused .uninitialized) ∧
  (∀ (s : State) (q : Refusal), s.runState = .running → step s ≠ .refused q) ∧
  (∀ (s : State) (hz : Rat), s.runState = .running → hz ≤ 0 →
    startRun hz s = .refused .clockNotPositive ∧
      ∀ times, run hz times s = .refused .clockNotPositive) ∧
  (∀ (s : State) (now : Rat), s.runState = .running → s.pacer.clockHz ≤ 0 →
    runIteration now s = .refused .clockNotPositive) ∧
  ∀ image ramSize hz cap cfg, hz ≤ 0 →
    construct image ramSize hz cap cfg = .refused .clockNotPositive

/-- R131: fetch, in the order the spec's decision D9 fixes: the overflow check, the 16-byte read, then `IR`
and `PC`; a fetch that faults leaves the state as it was; no fetch raises `MemoryOverflow`. -/
def Obligations.FetchRule : Prop :=
  ∀ s : State,
    (0xFFFFFFFFFFFFFFF0 ≤ s.pc.toNat → fetch s = .fault (.programCounterOverflow s)) ∧
    (s.pc.toNat < 0xFFFFFFFFFFFFFFF0 →
      (∀ e, s.mem.read s.pc 16 = .error e → fetch s = .fault (memFault e s)) ∧
      ∀ w : Word, s.mem.read s.pc 16 = .ok w →
        fetch s = .next { s with ir := w, pc := s.pc + 16 }) ∧
    ∀ u, fetch s ≠ .fault (.memoryOverflow u)

/-- R202: a step raises `InvalidOpCode` exactly when the word it fetched has an opcode that is none of the
five; the payload is the raw opcode, `IR` holds the whole word, `PC` is already advanced and nothing else
has changed. -/
def Obligations.InvalidOpcodeFaults : Prop :=
  ∀ (s : State) (op : BitVec 16) (u : State),
    step s = .fault (.invalidOpCode op u) ↔
      ∃ w : Word, fetch s = .next u ∧ u = { s with ir := w, pc := s.pc + 16 } ∧ s.runState = .running ∧
        op = w.extractLsb' 112 16 ∧ op ∉ [(0x0000 : BitVec 16), 0xF010, 0xF011, 0xF013, 0xF020]

/-- R208: a step raises `ProgramCounterOverflow` exactly when `PC >= 0xFFFFFFFFFFFFFFF0`, before it reads
memory; nothing has changed. -/
def Obligations.ProgramCounterOverflowExactly : Prop :=
  ∀ s : State, s.runState = .running →
    (0xFFFFFFFFFFFFFFF0 ≤ s.pc.toNat → step s = .fault (.programCounterOverflow s)) ∧
    ∀ u, step s = .fault (.programCounterOverflow u) → 0xFFFFFFFFFFFFFFF0 ≤ s.pc.toNat ∧ u = s

/-- R135: what a step that faults leaves: a fault of the fetch leaves the state as it was; a fault after a
fetch that succeeded leaves `IR` and `PC` as that fetch left them and changes nothing else, but for the
bytes of a `Store`. -/
def Obligations.FaultedStepLeaves : Prop :=
  ∀ (s : State) (f : Fault), step s = .fault f →
    (fetch s = .fault f ∧
      (f = .programCounterOverflow s ∨
        ∃ a, f = .nullAddress a s ∨ f = .reservedAddress a s ∨ f = .invalidAddress a s)) ∨
    ∃ w : Word, fetch s = .next { s with ir := w, pc := s.pc + 16 } ∧ s.mem.read s.pc 16 = .ok w ∧
      { resume f with mem := s.mem } = { s with ir := w, pc := s.pc + 16 } ∧
      (resume f).mem.rom = s.mem.rom ∧ (resume f).mem.ram.size = s.mem.ram.size ∧
      ((resume f).mem = s.mem ∨
        ∃ g, decode w = .ok (.store g) ∧
          ∀ x : Address, ¬(g.immediate.toNat ≤ x.toNat ∧ x.toNat < g.immediate.toNat + 16) →
            (resume f).mem.readByte x = s.mem.readByte x)

/-- R140: a step that completes has moved `PC` up by 16, without wrapping, and `IR` holds the word it read
there: there is no control transfer. -/
def Obligations.ExecutionIsSequential : Prop :=
  ∀ s t : State, step s = .next t →
    t.pc.toNat = s.pc.toNat + 16 ∧ s.mem.read s.pc 16 = .ok t.ir

/-- R38: no step, completed or faulted, changes `SP`, `FP`, `RA`, a flag or ROM. Nor does it change the run
state (R35), the pacer (R198), a parameter (R5) or the size of RAM (R33). -/
def Obligations.StepNeverTouches : Prop :=
  ∀ s t : State, StepLeaves s t →
    t.sp = s.sp ∧ t.fp = s.fp ∧ t.ra = s.ra ∧ t.flags = s.flags ∧ t.mem.rom = s.mem.rom ∧
      t.mem.ram.size = s.mem.ram.size ∧ t.runState = s.runState ∧ t.pacer = s.pacer ∧ t.cfg = s.cfg

/-- R81: a store is seen by the next fetch from its bytes: fetching where a register was stored latches the
register's value. -/
def Obligations.FetchSeesTheStore : Prop :=
  ∀ (s t : State) (f : Fields) (v : Word), readReg s f.target = .next v → exec (.store f) s = .next t →
    f.immediate.toNat + 16 ≤ 0xFFFFFFFFFFFFFFFF →
    fetch { t with pc := f.immediate } = .next { t with ir := v, pc := f.immediate + 16 }

/-! ### Invariants -/

/-- The invariant holds after reset, at the values the model names for what the spec leaves to the host
(log 3, log 4, log 9). -/
def Obligations.InvariantAtReset : Prop := Inv State.reset

/-- Every step keeps the invariant, whether it completes or faults: memory stays in canonical form, the
flags, FP and RA stay 0 (R29, R30, R31), `SP` stays below 256 (R183), `PC` stays at or above ENTRY and keeps
its alignment (R140, R251). -/
def Obligations.InvariantKeptByEveryStep : Prop :=
  ∀ s t : State, Inv s → StepLeaves s t → Inv t

/-- The invariant holds of every state the host can bring a constructed and reset core to, by any run of
its calls, going on after faults (R139). -/
def Obligations.InvariantOfReachableStates : Prop :=
  ∀ s : State, Reachable s → Inv s

/-- Construction with legal parameters and a positive frequency, then a reset, gives the invariant, and
every call of the host keeps it, from every state that meets it: step, run, reset, the stack
micro-operations (R183) and the dump, going on after a fault (R139). The list of calls is the spec's
decision D35, and where a run is interrupted the model's choice (log 22, log 32). -/
def Obligations.InvariantKeptByEveryHostCall : Prop :=
  (∀ image ramSize (hz : Rat) cap (cfg : Params), cfg.wf → 0 < hz →
    ∃ s, construct image ramSize hz cap cfg = .next s ∧ Inv (reset s)) ∧
  ∀ (c : HostCall) (s : State), Inv s → Inv (hostCall c s)

/-- R32: ROM holds the image, byte for byte, from construction on, and neither `zero()` nor any call of the
host changes it: no step, no reset, no run, no stack operation, no dump. -/
def Obligations.RomEqualsTheImageForEver : Prop :=
  (∀ image ramSize (hz : Rat) cap cfg, 0 < hz →
    ∃ s, construct image ramSize hz cap cfg = .next s ∧ s.mem.rom.size = image.length ∧
      ∀ o (h : o < image.length), romByte s.mem o = image[o]) ∧
  (∀ m : Memory, m.zero.rom = m.rom) ∧
  ∀ calls s, (hostCalls calls s).mem.rom = s.mem.rom

/-- R245, R35, R5: construction at a positive frequency completes and leaves the run state Uninitialized, the
ROM device with the image's size, the RAM device with RAM_SIZE bytes, and the parameters as the host gave
them. -/
def Obligations.ConstructionLeaves : Prop :=
  ∀ image ramSize (hz : Rat) cap cfg, 0 < hz →
    ∃ s, construct image ramSize hz cap cfg = .next s ∧ s.runState = .uninitialized ∧
      s.mem.rom.size = image.length ∧ s.mem.ram.size = ramSize ∧ s.cfg = cfg ∧
      s.pacer.clockHz = hz ∧ s.pacer.smoothCap = cap

/-! ### Reset (70_reset_and_hazards.md) -/

/-- R240, R39: after `Reset()` `PC` is ENTRY, every general register, `SP`, `FP`, `RA`, `IR`, every flag,
every RAM byte and `owed` are 0 and the run state is Running. `IR` = 0 and `owed` = 0 are the spec's
decisions D10, D20. -/
def Obligations.ResetLeaves : Prop :=
  ∀ s : State,
    (reset s).pc = s.cfg.entry ∧ (∀ k : Fin 26, (reset s).g[k] = 0) ∧ (reset s).sp = 0 ∧
    (reset s).fp = 0 ∧ (reset s).ra = 0 ∧
    (reset s).flags = ⟨false, false, false, false, false, false, false⟩ ∧ (reset s).ir = 0 ∧
    (∀ o, ramByte (reset s).mem o = 0) ∧ (reset s).pacer.owed = 0 ∧
    (reset s).runState = .running

/-- R243: `Reset()` does not change ROM, the size of RAM, a parameter, `CLOCK_HZ`, `SMOOTH_CAP`,
`last_grant` or the smoothing buffer. -/
def Obligations.ResetKeepsTheParameters : Prop :=
  ∀ s : State,
    (reset s).mem.rom = s.mem.rom ∧ (reset s).mem.ram.size = s.mem.ram.size ∧ (reset s).cfg = s.cfg ∧
    (reset s).pacer.clockHz = s.pacer.clockHz ∧ (reset s).pacer.smoothCap = s.pacer.smoothCap ∧
    (reset s).pacer.lastGrant = s.pacer.lastGrant ∧ (reset s).pacer.smoothing = s.pacer.smoothing

/-- R242: nothing of the earlier run survives a reset: the state after it depends on ROM, the parameters
and what the pacer keeps, and a second reset changes nothing. -/
def Obligations.ResetForgetsTheRun : Prop :=
  (∀ s t : State, s.mem.rom = t.mem.rom → s.mem.ram.size = t.mem.ram.size → s.cfg = t.cfg →
    { s.pacer with owed := 0 } = { t.pacer with owed := 0 } → reset s = reset t) ∧
  ∀ s, reset (reset s) = reset s

/-- The fixed state after reset is `Reset()` of any core with the model's default parameters, empty ROM,
256 bytes of RAM and the pacer values of log 9: the model's choices (log 3, log 4, log 5, log 9). -/
def Obligations.ResetStateIsReset : Prop :=
  ∀ s : State, s.cfg = Params.default → s.mem.rom = ⟨0, []⟩ → s.mem.ram.size = 256 →
    { s.pacer with owed := 0 } = ⟨0, 0, [], 1, 0⟩ → reset s = State.reset

/-! ### The pacer and the run (45_clock_pacer.md, 40_step_engine.md R137) -/

/-- R192: at a positive frequency a poll completes and changes at most `last_grant`; after more than one
period it is granted, before a full period it is not, and a poll that is not granted changes nothing, nor
does the iteration it belongs to; R193: the iteration of a poll that is granted is one tick from
what the poll left, and a tick steps where nothing is owed, else pays; that the issuing tick pays too is D20.
What a grant leaves, and a poll at exactly one period, are the open grant
policy (D21; log 10). R191: at a frequency that is not positive it is refused (D21; log 2). -/
def Obligations.PollGrantsAfterAPeriod : Prop :=
  ∀ (s : State) (now : Rat),
    (s.pacer.clockHz ≤ 0 → poll now s = .refused .clockNotPositive) ∧
    (0 < s.pacer.clockHz → ∃ last granted,
      poll now s = .next ({ s with pacer := { s.pacer with lastGrant := last } }, granted) ∧
      (1 / s.pacer.clockHz < now - s.pacer.lastGrant → granted = true) ∧
      (now - s.pacer.lastGrant < 1 / s.pacer.clockHz → granted = false) ∧
      (granted = false → last = s.pacer.lastGrant ∧
        (s.runState = .running → runIteration now s = .next s)) ∧
      (granted = true → s.runState = .running →
        runIteration now s = tick { s with pacer := { s.pacer with lastGrant := last } })) ∧
    (s.pacer.owed = 0 → tick s = andThen (stepWithCost s) fun r =>
      .next { r.1 with pacer := { r.1.pacer with owed := r.2 - 1 } }) ∧
    (s.pacer.owed ≠ 0 → tick s = .next { s with pacer := { s.pacer with owed := s.pacer.owed - 1 } })

/-- R193, R194: an instruction of cost `c` is issued on a granted tick with nothing owed and occupies `c`
ticks: no other instruction is issued before they are paid. That the issuing tick is the first of them is
the spec's decision D20. -/
def Obligations.InstructionOccupiesItsCycles : Prop :=
  ∀ (s t : State) (c : Nat), s.pacer.owed = 0 → stepWithCost s = .next (t, c) →
    ∀ n, 1 ≤ n → n ≤ c → ticks n s = .next { t with pacer := { t.pacer with owed := c - n } }

/-- R137, R196: whatever the pacer grants, a run goes through the states that repeated steps go through: it
is at some number of steps, at most one a poll, and a fault that ends it is the fault of the next step,
everything but the pacer alike. A run of a running core at a positive frequency is never refused. -/
def Obligations.RunIsRepeatedSteps : Prop :=
  ∀ (hz : Rat) (times : List Rat) (s : State),
    (∀ t, run hz times s = .next t →
      ∃ k ≤ times.length, ∃ u, steps k s = .next u ∧ SameButPacer u t) ∧
    (∀ f, run hz times s = .fault f →
      ∃ k < times.length, ∃ u r, steps k s = .next u ∧ step u = .fault r ∧
        f = leaving r (resume f) ∧ SameButPacer (resume r) (resume f)) ∧
    ∀ q, s.runState = .running → 0 < hz → run hz times s ≠ .refused q

/-! ### The stack micro-operations (44_stack_primitives.md) -/

/-- R180: the stack address is the fixed high part and the low 8 bits of `SP`: 256 addresses. The place of
the window is the spec's parameter `STACK_HIGH` (D16). -/
def Obligations.StackAddressInItsWindow : Prop :=
  ∀ s : State, (stackAddress s).toNat = s.cfg.stackHigh.toNat * 256 + s.sp.toNat % 256

/-- R181: `Push` writes at the stack address, then increments; at `SP[7:0]` = 0xFF the byte is written and
then `StackOverflow` raised with `SP` unchanged, the spec's decision D17; a write that faults changes
nothing. -/
def Obligations.PushRule : Prop :=
  ∀ (s : State) (b : Byte),
    (∀ f, writeByte s (stackAddress s) b = .fault f → push b s = .fault f ∧ resume f = s) ∧
    ∀ t, writeByte s (stackAddress s) b = .next t →
      (s.sp.toNat % 256 ≠ 0xFF → push b s = .next { t with sp := s.sp + 1 }) ∧
      (s.sp.toNat % 256 = 0xFF → push b s = .fault (.stackOverflow t) ∧ t.sp = s.sp)

/-- R182: `Pull` at `SP[7:0]` = 0 is `StackUnderflow` with nothing changed; else it decrements and reads; a
read that faults leaves the decrement, the spec's decision D17. Memory is never changed. -/
def Obligations.PullRule : Prop :=
  ∀ s : State,
    (s.sp.toNat % 256 = 0 → pull s = .fault (.stackUnderflow s)) ∧
    (s.sp.toNat % 256 ≠ 0 →
      (∀ b, s.mem.readByte (stackAddress { s with sp := s.sp - 1 }) = .ok b →
        pull s = .next ({ s with sp := s.sp - 1 }, b)) ∧
      ∀ e, s.mem.readByte (stackAddress { s with sp := s.sp - 1 }) = .error e →
        pull s = .fault (memFault e { s with sp := s.sp - 1 }))

/-- R184, R185: `PushWord` leaves the word little-endian, low byte at the lower address, and `PullWord` right
after it returns the word and restores `SP`. -/
def Obligations.PulledWordIsThePushedWord : Prop :=
  ∀ (s t : State) (w : BitVec 16), pushWord w s = .next t →
    t.mem.readByte (stackAddress s) = .ok (w.extractLsb' 0 8) ∧
    t.mem.readByte (stackAddress s + 1) = .ok (w.extractLsb' 8 8) ∧
    pullWord t = .next ({ t with sp := s.sp }, w)

/-- R187: last in, first out: pulling as many bytes as were pushed gives them back in reverse, with `SP` at
its starting value and nothing but memory changed. -/
def Obligations.StackIsLastInFirstOut : Prop :=
  ∀ (bs : List Byte) (s t : State), pushAll bs s = .next t →
    { t with mem := s.mem, sp := s.sp } = s ∧ t.sp.toNat % 256 = s.sp.toNat % 256 + bs.length ∧
    pullAll bs.length t = .next ({ t with sp := s.sp }, bs.reverse)

/-- R183: at most 255 pushes in a row succeed from an empty stack. -/
def Obligations.AtMost255Pushes : Prop :=
  ∀ (bs : List Byte) (s t : State), s.sp = 0 → pushAll bs s = .next t →
    bs.length ≤ 255 ∧ t.sp.toNat = bs.length
end

