-- ==== Sys2Proof/Laws/Bytes.lean ====
section
/-! SUPPORT. The little-endian layout of values: `leBytes` and `leValue` are inverse, and byte `i` of a
value is its bits `8*i+7` to `8*i` (20_memory.md R67, R68, R70). -/

namespace Sys2Proof

@[simp] theorem leBytes_length {w : Nat} (v : BitVec w) (n : Nat) : (leBytes v n).length = n := by
  induction n generalizing v with
  | zero => rfl
  | succ n ih => simp [leBytes, ih]

/-- Byte `i` is `v[8*i+7 : 8*i]`. -/
theorem leBytes_getElem {w : Nat} (v : BitVec w) (n i : Nat) (h : i < (leBytes v n).length) :
    (leBytes v n)[i] = v.extractLsb' (8 * i) 8 := by
  induction n generalizing v i with
  | zero => simp [leBytes] at h
  | succ n ih =>
    cases i with
    | zero => simp [leBytes]
    | succ i =>
      simp only [leBytes, List.getElem_cons_succ]
      rw [ih (v >>> 8) i (by simpa [leBytes] using h)]
      apply BitVec.eq_of_getLsbD_eq
      intro j hj
      simp only [BitVec.getLsbD_extractLsb', BitVec.getLsbD_ushiftRight, hj, decide_true, Bool.true_and]
      congr 1
      omega

theorem leValue_lt (bs : List Byte) : leValue bs < 2 ^ (8 * bs.length) := by
  induction bs with
  | nil => simp [leValue]
  | cons b bs ih =>
    have hb : b.toNat < 256 := by simpa using b.isLt
    have e : 2 ^ (8 * (bs.length + 1)) = 256 * 2 ^ (8 * bs.length) := by
      rw [show 8 * (bs.length + 1) = 8 + 8 * bs.length by ring, pow_add]; norm_num
    simp only [leValue, List.length_cons, e]
    omega

/-- The value of a value's own bytes. -/
theorem leValue_leBytes {w : Nat} (v : BitVec w) (n : Nat) :
    leValue (leBytes v n) = v.toNat % 2 ^ (8 * n) := by
  induction n generalizing v with
  | zero => simp [leBytes, leValue, Nat.mod_one]
  | succ n ih =>
    have e : 2 ^ (8 * (n + 1)) = 256 * 2 ^ (8 * n) := by
      rw [show 8 * (n + 1) = 8 + 8 * n by ring, pow_add]; norm_num
    rw [leBytes, leValue, ih, e, Nat.mod_mul]
    simp [Nat.shiftRight_eq_div_pow]

/-- A value of `n` bytes is the value of its bytes. -/
theorem ofNat_leValue_leBytes (n : Nat) (v : BitVec (8 * n)) :
    BitVec.ofNat (8 * n) (leValue (leBytes v n)) = v := by
  apply BitVec.eq_of_toNat_eq
  simp [leValue_leBytes]

/-- Byte `i` of the value of a run of bytes is byte `i` of the run. -/
theorem leBytes_ofNat_leValue (bs : List Byte) :
    leBytes (BitVec.ofNat (8 * bs.length) (leValue bs)) bs.length = bs := by
  have key : ∀ (bs : List Byte) (w : Nat), 8 * bs.length ≤ w →
      leBytes (BitVec.ofNat w (leValue bs)) bs.length = bs := by
    intro bs
    induction bs with
    | nil => intro w _; rfl
    | cons b bs ih =>
      intro w hw
      have hlt : leValue (b :: bs) < 2 ^ w :=
        lt_of_lt_of_le (leValue_lt (b :: bs)) (Nat.pow_le_pow_right (by norm_num) hw)
      have hb : b.toNat < 256 := by simpa using b.isLt
      simp only [List.length_cons, leBytes]
      congr 1
      · apply BitVec.eq_of_toNat_eq
        simp only [BitVec.extractLsb'_toNat, BitVec.toNat_ofNat, Nat.shiftRight_zero,
          Nat.mod_eq_of_lt hlt]
        simp only [leValue]
        omega
      · have : BitVec.ofNat w (leValue (b :: bs)) >>> 8 = BitVec.ofNat w (leValue bs) := by
          apply BitVec.eq_of_toNat_eq
          have h2 : leValue bs < 2 ^ w := by
            have : leValue bs ≤ leValue (b :: bs) := by simp only [leValue]; omega
            omega
          simp only [BitVec.toNat_ushiftRight, BitVec.toNat_ofNat, Nat.mod_eq_of_lt hlt,
            Nat.mod_eq_of_lt h2, Nat.shiftRight_eq_div_pow]
          simp only [leValue]
          omega
        rw [this]
        exact ih w (by simp only [List.length_cons] at hw; omega)
  exact key bs _ le_rfl

end Sys2Proof
end

