-- ==== Sys2Proof/Laws/State.lean ====
section
/-! SUPPORT. What each named update of the state leaves in each field, so that no proof unfolds a record
update; and the register file's read after write. -/

namespace Sys2Proof.Machine

@[simp] theorem setMem_g (s : State) (m : Memory) : (setMem s m).g = s.g := rfl
@[simp] theorem setMem_pc (s : State) (m : Memory) : (setMem s m).pc = s.pc := rfl
@[simp] theorem setMem_ir (s : State) (m : Memory) : (setMem s m).ir = s.ir := rfl
@[simp] theorem setMem_sp (s : State) (m : Memory) : (setMem s m).sp = s.sp := rfl
@[simp] theorem setMem_fp (s : State) (m : Memory) : (setMem s m).fp = s.fp := rfl
@[simp] theorem setMem_ra (s : State) (m : Memory) : (setMem s m).ra = s.ra := rfl
@[simp] theorem setMem_flags (s : State) (m : Memory) : (setMem s m).flags = s.flags := rfl
@[simp] theorem setMem_mem (s : State) (m : Memory) : (setMem s m).mem = m := rfl
@[simp] theorem setMem_runState (s : State) (m : Memory) : (setMem s m).runState = s.runState := rfl
@[simp] theorem setMem_pacer (s : State) (m : Memory) : (setMem s m).pacer = s.pacer := rfl
@[simp] theorem setMem_cfg (s : State) (m : Memory) : (setMem s m).cfg = s.cfg := rfl

@[simp] theorem latch_g (s : State) (w : Word) : (latch s w).g = s.g := rfl
@[simp] theorem latch_pc (s : State) (w : Word) : (latch s w).pc = s.pc + 16 := rfl
@[simp] theorem latch_ir (s : State) (w : Word) : (latch s w).ir = w := rfl
@[simp] theorem latch_sp (s : State) (w : Word) : (latch s w).sp = s.sp := rfl
@[simp] theorem latch_fp (s : State) (w : Word) : (latch s w).fp = s.fp := rfl
@[simp] theorem latch_ra (s : State) (w : Word) : (latch s w).ra = s.ra := rfl
@[simp] theorem latch_flags (s : State) (w : Word) : (latch s w).flags = s.flags := rfl
@[simp] theorem latch_mem (s : State) (w : Word) : (latch s w).mem = s.mem := rfl
@[simp] theorem latch_runState (s : State) (w : Word) : (latch s w).runState = s.runState := rfl
@[simp] theorem latch_pacer (s : State) (w : Word) : (latch s w).pacer = s.pacer := rfl
@[simp] theorem latch_cfg (s : State) (w : Word) : (latch s w).cfg = s.cfg := rfl

@[simp] theorem setG_g (s : State) (k : Fin 26) (v : Word) : (setG s k v).g = s.g.set k v := rfl
@[simp] theorem setG_pc (s : State) (k : Fin 26) (v : Word) : (setG s k v).pc = s.pc := rfl
@[simp] theorem setG_ir (s : State) (k : Fin 26) (v : Word) : (setG s k v).ir = s.ir := rfl
@[simp] theorem setG_sp (s : State) (k : Fin 26) (v : Word) : (setG s k v).sp = s.sp := rfl
@[simp] theorem setG_fp (s : State) (k : Fin 26) (v : Word) : (setG s k v).fp = s.fp := rfl
@[simp] theorem setG_ra (s : State) (k : Fin 26) (v : Word) : (setG s k v).ra = s.ra := rfl
@[simp] theorem setG_flags (s : State) (k : Fin 26) (v : Word) : (setG s k v).flags = s.flags := rfl
@[simp] theorem setG_mem (s : State) (k : Fin 26) (v : Word) : (setG s k v).mem = s.mem := rfl
@[simp] theorem setG_runState (s : State) (k : Fin 26) (v : Word) : (setG s k v).runState = s.runState := rfl
@[simp] theorem setG_pacer (s : State) (k : Fin 26) (v : Word) : (setG s k v).pacer = s.pacer := rfl
@[simp] theorem setG_cfg (s : State) (k : Fin 26) (v : Word) : (setG s k v).cfg = s.cfg := rfl

@[simp] theorem setSp_g (s : State) (v : Half) : (setSp s v).g = s.g := rfl
@[simp] theorem setSp_pc (s : State) (v : Half) : (setSp s v).pc = s.pc := rfl
@[simp] theorem setSp_ir (s : State) (v : Half) : (setSp s v).ir = s.ir := rfl
@[simp] theorem setSp_sp (s : State) (v : Half) : (setSp s v).sp = v := rfl
@[simp] theorem setSp_fp (s : State) (v : Half) : (setSp s v).fp = s.fp := rfl
@[simp] theorem setSp_ra (s : State) (v : Half) : (setSp s v).ra = s.ra := rfl
@[simp] theorem setSp_flags (s : State) (v : Half) : (setSp s v).flags = s.flags := rfl
@[simp] theorem setSp_mem (s : State) (v : Half) : (setSp s v).mem = s.mem := rfl
@[simp] theorem setSp_runState (s : State) (v : Half) : (setSp s v).runState = s.runState := rfl
@[simp] theorem setSp_pacer (s : State) (v : Half) : (setSp s v).pacer = s.pacer := rfl
@[simp] theorem setSp_cfg (s : State) (v : Half) : (setSp s v).cfg = s.cfg := rfl

@[simp] theorem setPacer_g (s : State) (p : Pacer) : (setPacer s p).g = s.g := rfl
@[simp] theorem setPacer_pc (s : State) (p : Pacer) : (setPacer s p).pc = s.pc := rfl
@[simp] theorem setPacer_ir (s : State) (p : Pacer) : (setPacer s p).ir = s.ir := rfl
@[simp] theorem setPacer_sp (s : State) (p : Pacer) : (setPacer s p).sp = s.sp := rfl
@[simp] theorem setPacer_fp (s : State) (p : Pacer) : (setPacer s p).fp = s.fp := rfl
@[simp] theorem setPacer_ra (s : State) (p : Pacer) : (setPacer s p).ra = s.ra := rfl
@[simp] theorem setPacer_flags (s : State) (p : Pacer) : (setPacer s p).flags = s.flags := rfl
@[simp] theorem setPacer_mem (s : State) (p : Pacer) : (setPacer s p).mem = s.mem := rfl
@[simp] theorem setPacer_runState (s : State) (p : Pacer) : (setPacer s p).runState = s.runState := rfl
@[simp] theorem setPacer_pacer (s : State) (p : Pacer) : (setPacer s p).pacer = p := rfl
@[simp] theorem setPacer_cfg (s : State) (p : Pacer) : (setPacer s p).cfg = s.cfg := rfl

@[simp] theorem reset_g (s : State) : (reset s).g = Vector.replicate 26 0 := rfl
@[simp] theorem reset_pc (s : State) : (reset s).pc = s.cfg.entry := rfl
@[simp] theorem reset_ir (s : State) : (reset s).ir = 0 := rfl
@[simp] theorem reset_sp (s : State) : (reset s).sp = 0 := rfl
@[simp] theorem reset_fp (s : State) : (reset s).fp = 0 := rfl
@[simp] theorem reset_ra (s : State) : (reset s).ra = 0 := rfl
@[simp] theorem reset_flags (s : State) : (reset s).flags = flagsCleared := rfl
@[simp] theorem reset_mem (s : State) : (reset s).mem = s.mem.zero := rfl
@[simp] theorem reset_runState (s : State) : (reset s).runState = .running := rfl
@[simp] theorem reset_pacer (s : State) : (reset s).pacer = { s.pacer with owed := 0 } := rfl
@[simp] theorem reset_cfg (s : State) : (reset s).cfg = s.cfg := rfl

/-! ### The register file -/

/-- A general register reads as it was last written, and no write reaches another one (R20). -/
theorem getG_setG (s : State) (i k : Fin 26) (v : Word) :
    getG (setG s k v) i = if i = k then v else getG s i := by
  by_cases h : i = k
  · subst h; simp [getG]
  · have : (k : Nat) ≠ i := fun e => h (Fin.ext e.symm)
    simp [getG, h, this]

@[simp] theorem getG_setG_same (s : State) (k : Fin 26) (v : Word) : getG (setG s k v) k = v := by
  simp [getG_setG]

@[simp] theorem getG_setMem (s : State) (m : Memory) (i : Fin 26) : getG (setMem s m) i = getG s i := rfl

@[simp] theorem getG_latch (s : State) (w : Word) (i : Fin 26) : getG (latch s w) i = getG s i := rfl

@[simp] theorem getG_setSp (s : State) (v : Half) (i : Fin 26) : getG (setSp s v) i = getG s i := rfl

@[simp] theorem getG_setPacer (s : State) (p : Pacer) (i : Fin 26) :
    getG (setPacer s p) i = getG s i := rfl

theorem setG_setG (s : State) (k : Fin 26) (v w : Word) : setG (setG s k v) k w = setG s k w := by
  simp [setG]

theorem setMem_setMem (s : State) (m n : Memory) : setMem (setMem s m) n = setMem s n := rfl

/-- Two states that agree on every field are the same. -/
theorem State.ext_fields {s t : State} (g : s.g = t.g) (pc : s.pc = t.pc) (ir : s.ir = t.ir)
    (sp : s.sp = t.sp) (fp : s.fp = t.fp) (ra : s.ra = t.ra) (flags : s.flags = t.flags)
    (mem : s.mem = t.mem) (runState : s.runState = t.runState) (pacer : s.pacer = t.pacer)
    (cfg : s.cfg = t.cfg) : s = t := by
  cases s; cases t; simp_all

end Sys2Proof.Machine
end

