-- ==== Sys2Proof/Laws/Ops.lean ====
section
/-! SUPPORT. What the shared operations can do, once each: sequencing, faults, devices, the MMU, fetch and
the register file. Later proofs cite these and unfold no operation. -/

namespace Sys2Proof.Machine

/-! ### The literals, for arithmetic -/

/-- The bounds of the address space as numbers (R61): `have := bounds; omega`. -/
theorem bounds : Config.maxAddress = 0xFFFFFFFFFFFFFFFF ∧ Config.nullLast = 0xF ∧
    Config.systemLast = 0xFFFFF ∧ Config.romBase = 0x100000 ∧ Config.romLast = 0x1FFFFFFFF ∧
    Config.hardwareLast = 0x2FFFFFFFF ∧ Config.ramBase = 0x300000000 := by
  decide

/-! ### Sequencing -/

@[simp] theorem andThen_next {α β : Type} (a : α) (k : α → Result β) : andThen (.next a) k = k a := rfl

@[simp] theorem andThen_fault {α β : Type} (f : Fault) (k : α → Result β) :
    andThen (.fault f) k = .fault f := rfl

@[simp] theorem andThen_refused {α β : Type} (q : Refusal) (k : α → Result β) :
    andThen (.refused q) k = .refused q := rfl

theorem andThen_eq_next {α β : Type} {r : Result α} {k : α → Result β} {b : β} :
    andThen r k = .next b ↔ ∃ a, r = .next a ∧ k a = .next b := by
  cases r <;> simp [andThen]

theorem andThen_eq_fault {α β : Type} {r : Result α} {k : α → Result β} {f : Fault} :
    andThen r k = .fault f ↔ r = .fault f ∨ ∃ a, r = .next a ∧ k a = .fault f := by
  cases r <;> simp [andThen]

theorem andThen_eq_refused {α β : Type} {r : Result α} {k : α → Result β} {q : Refusal} :
    andThen r k = .refused q ↔ r = .refused q ∨ ∃ a, r = .next a ∧ k a = .refused q := by
  cases r <;> simp [andThen]

/-! ### Faults -/

@[simp] theorem resume_memFault (e : MemError) (s : State) : resume (memFault e s) = s := by
  cases e <;> rfl

theorem memFault_injective {e e' : MemError} {s s' : State} (h : memFault e s = memFault e' s') :
    e = e' ∧ s = s' := by
  cases e <;> cases e' <;> simp_all [memFault]

/-! ### Cell lists -/

theorem cellsRead_of_absent {cs : List Host.Cell} {o : Nat} (h : ∀ c ∈ cs, c.1 ≠ o) :
    cellsRead cs o = Config.unlistedByte := by
  induction cs with
  | nil => rfl
  | cons c cs ih =>
    simp only [cellsRead, h c (by simp), if_false]
    exact ih fun e he => h e (by simp [he])

theorem cellsRead_filter {cs : List Host.Cell} {o x : Nat} (h : o ≠ x) :
    cellsRead (cs.filter fun c => c.1 ≠ o) x = cellsRead cs x := by
  induction cs with
  | nil => rfl
  | cons c cs ih =>
    by_cases hc : c.1 = o
    · simp only [List.filter_cons, hc]
      simp only [ne_eq, not_true_eq_false, decide_false, Bool.false_eq_true, if_false, cellsRead]
      rw [if_neg (by rw [hc]; exact h)]
      exact ih
    · simp only [List.filter_cons, ne_eq, hc, not_false_eq_true, decide_true, if_true, cellsRead]
      simp only [ne_eq] at ih
      rw [ih]

theorem cellsRead_cellsInsert {cs : List Host.Cell} {c : Host.Cell} (h : ∀ e ∈ cs, e.1 ≠ c.1) (x : Nat) :
    cellsRead (cellsInsert c cs) x = if c.1 = x then c.2 else cellsRead cs x := by
  induction cs with
  | nil => rfl
  | cons e es ih =>
    have he := h e (by simp)
    simp only [cellsInsert]
    split
    · rfl
    · simp only [cellsRead, ih fun d hd => h d (by simp [hd])]
      by_cases h1 : e.1 = x <;> by_cases h2 : c.1 = x <;> simp [h1, h2]
      exact absurd (h1.trans h2.symm) he

/-- A cell list reads as it was last written, and a write reaches no other offset; no canonical form is
needed. -/
theorem cellsRead_cellsWrite (cs : List Host.Cell) (o x : Nat) (b : Byte) :
    cellsRead (cellsWrite cs o b) x = if o = x then b else cellsRead cs x := by
  have gone : ∀ e ∈ cs.filter (fun c => c.1 ≠ o), e.1 ≠ o := by simp
  unfold cellsWrite
  by_cases hb : b = Config.unlistedByte
  · by_cases h : o = x
    · subst h; simp only [hb, if_true]; exact cellsRead_of_absent gone
    · simp only [hb, if_true, if_neg h]; exact cellsRead_filter h
  · simp only [if_neg hb]
    rw [cellsRead_cellsInsert gone]
    by_cases h : o = x
    · simp [h]
    · simp only [if_neg h]; exact cellsRead_filter h

theorem mem_cellsInsert {c e : Host.Cell} {cs : List Host.Cell} :
    e ∈ cellsInsert c cs ↔ e = c ∨ e ∈ cs := by
  induction cs with
  | nil => simp [cellsInsert]
  | cons d ds ih =>
    simp only [cellsInsert]
    split
    · simp
    · simp only [List.mem_cons, ih]; tauto

theorem cellsInsert_pairwise {c : Host.Cell} {cs : List Host.Cell}
    (h : cs.Pairwise fun a b => a.1 < b.1) (hc : ∀ e ∈ cs, e.1 ≠ c.1) :
    (cellsInsert c cs).Pairwise fun a b => a.1 < b.1 := by
  induction cs with
  | nil => simp [cellsInsert]
  | cons d ds ih =>
    rw [List.pairwise_cons] at h
    have hd := hc d (by simp)
    simp only [cellsInsert]
    split
    · rename_i lt
      rw [List.pairwise_cons, List.pairwise_cons]
      refine ⟨?_, h⟩
      intro e he
      rcases List.mem_cons.1 he with rfl | he
      · exact lt
      · exact lt_trans lt (h.1 e he)
    · rename_i nlt
      rw [List.pairwise_cons]
      refine ⟨?_, ih h.2 fun e he => hc e (by simp [he])⟩
      intro e he
      rcases mem_cellsInsert.1 he with rfl | he
      · omega
      · exact h.1 e he

/-! ### Devices -/

theorem deviceRead_deviceWrite (d : Device) (o x : Nat) (b : Byte) :
    deviceRead (deviceWrite d o b) x = if o = x then b else deviceRead d x :=
  cellsRead_cellsWrite d.cells o x b

@[simp] theorem deviceWrite_size (d : Device) (o : Nat) (b : Byte) : (deviceWrite d o b).size = d.size := rfl

/-- A write inside the device keeps the canonical form. -/
theorem deviceWrite_wf {d : Device} {base : Nat} (h : d.wf base) {o : Nat}
    (ho : base ≤ o ∧ o < base + d.size) (b : Byte) : (deviceWrite d o b).wf base := by
  obtain ⟨hp, hc⟩ := h
  have fp : (d.cells.filter fun c => c.1 ≠ o).Pairwise fun a b => a.1 < b.1 := hp.filter _
  have fc : ∀ c ∈ d.cells.filter (fun c => c.1 ≠ o),
      c.2 ≠ Config.unlistedByte ∧ base ≤ c.1 ∧ c.1 < base + d.size := fun c h => hc c (List.mem_of_mem_filter h)
  show (cellsWrite d.cells o b).Pairwise _ ∧ ∀ c ∈ cellsWrite d.cells o b, _
  unfold cellsWrite
  by_cases hb : b = Config.unlistedByte
  · simp only [hb, if_true]; exact ⟨fp, fc⟩
  · simp only [if_neg hb]
    refine ⟨cellsInsert_pairwise fp (by simp), fun c h => ?_⟩
    rcases mem_cellsInsert.1 h with rfl | h
    · exact ⟨hb, ho⟩
    · exact fc c h

/-- Two canonical devices of one size that read alike are the same data. -/
theorem cells_ext {cs es : List Host.Cell}
    (hc : cs.Pairwise fun a b => a.1 < b.1) (he : es.Pairwise fun a b => a.1 < b.1)
    (hc' : ∀ c ∈ cs, c.2 ≠ Config.unlistedByte) (he' : ∀ c ∈ es, c.2 ≠ Config.unlistedByte)
    (h : ∀ x, cellsRead cs x = cellsRead es x) : cs = es := by
  have read_mem : ∀ {l : List Host.Cell}, l.Pairwise (fun a b => a.1 < b.1) → ∀ c ∈ l, cellsRead l c.1 = c.2 := by
    intro l hl
    induction l with
    | nil => simp
    | cons d ds ih =>
      rw [List.pairwise_cons] at hl
      intro c hc
      rcases List.mem_cons.1 hc with rfl | hc
      · simp [cellsRead]
      · simp only [cellsRead]
        rw [if_neg (by have := hl.1 c hc; omega)]
        exact ih hl.2 c hc
  have below : ∀ {l : List Host.Cell} {d : Host.Cell}, (d :: l).Pairwise (fun a b => a.1 < b.1) →
      ∀ x ≤ d.1, ∀ c ∈ l, c.1 ≠ x := by
    intro l d hl x hx c hc
    have := (List.pairwise_cons.1 hl).1 c hc
    omega
  induction cs generalizing es with
  | nil =>
    cases es with
    | nil => rfl
    | cons e es => exact absurd ((h e.1).trans (by simp [cellsRead])).symm (he' e (by simp))
  | cons c cs ih =>
    cases es with
    | nil => exact absurd ((h c.1).symm.trans (by simp [cellsRead])).symm (hc' c (by simp))
    | cons e es =>
      have same : c.1 = e.1 := by
        rcases lt_trichotomy c.1 e.1 with lt | eq | lt
        · exfalso
          have h1 := h c.1
          rw [read_mem hc c (by simp), cellsRead_of_absent (o := c.1)] at h1
          · exact hc' c (by simp) h1
          · intro d hd
            rcases List.mem_cons.1 hd with rfl | hd
            · omega
            · exact below he c.1 lt.le d hd
        · exact eq
        · exfalso
          have h1 := h e.1
          rw [read_mem he e (by simp), cellsRead_of_absent (o := e.1)] at h1
          · exact he' e (by simp) h1.symm
          · intro d hd
            rcases List.mem_cons.1 hd with rfl | hd
            · omega
            · exact below hc e.1 lt.le d hd
      have val : c.2 = e.2 := by
        have h1 := h c.1
        rw [read_mem hc c (by simp)] at h1
        rw [h1, same]
        exact read_mem he e (by simp)
      have ce : c = e := Prod.ext same val
      subst ce
      congr 1
      refine ih (List.pairwise_cons.1 hc).2 (List.pairwise_cons.1 he).2
        (fun d hd => hc' d (by simp [hd])) (fun d hd => he' d (by simp [hd])) fun x => ?_
      by_cases hx : c.1 = x
      · rw [cellsRead_of_absent (below hc x hx.ge), cellsRead_of_absent (below he x hx.ge)]
      · simpa [cellsRead, hx] using h x

@[simp] theorem deviceFill_size (d : Device) (o : Nat) (bs : List Byte) :
    (deviceFill d o bs).size = d.size := by
  induction bs generalizing d o with
  | nil => rfl
  | cons b bs ih => simp [deviceFill, ih]

theorem deviceFill_wf {d : Device} {base : Nat} (h : d.wf base) {o : Nat} {bs : List Byte}
    (hb : base ≤ o) (ho : o + bs.length ≤ base + d.size) : (deviceFill d o bs).wf base := by
  induction bs generalizing d o with
  | nil => exact h
  | cons b bs ih =>
    simp only [List.length_cons] at ho
    refine ih (deviceWrite_wf h (by omega) b) (by omega) ?_
    simp only [deviceWrite_size]
    omega

theorem deviceRead_deviceFill (d : Device) (o x : Nat) (bs : List Byte) :
    deviceRead (deviceFill d o bs) x =
      if o ≤ x ∧ x < o + bs.length then bs.getD (x - o) 0 else deviceRead d x := by
  induction bs generalizing d o with
  | nil =>
    rw [if_neg (by simp)]
    rfl
  | cons b bs ih =>
    simp only [deviceFill, ih, deviceRead_deviceWrite, List.length_cons]
    by_cases h0 : o = x
    · subst h0
      simp
    · by_cases h1 : o ≤ x ∧ x < o + (bs.length + 1)
      · rw [if_pos h1, if_pos (by omega), show x - o = (x - (o + 1)) + 1 by omega]
        simp
      · rw [if_neg h1, if_neg (by omega), if_neg h0]

/-! ### One byte through the MMU -/

/-- The segments and the ranges of R61. -/
theorem segment_cases (a : Address) :
    (segment a = .null ∧ a.toNat ≤ Config.nullLast) ∨
    (segment a = .system ∧ Config.nullLast < a.toNat ∧ a.toNat ≤ Config.systemLast) ∨
    (segment a = .rom ∧ Config.romBase ≤ a.toNat ∧ a.toNat ≤ Config.romLast) ∨
    (segment a = .hardwareIO ∧ Config.romLast < a.toNat ∧ a.toNat ≤ Config.hardwareLast) ∨
    (segment a = .ram ∧ Config.ramBase ≤ a.toNat) := by
  have := bounds
  unfold segment
  split_ifs <;> simp only [false_and, false_or, or_false, true_and] <;> omega

/-- A byte write completes exactly in the RAM device, and this is the memory it leaves (R64). -/
theorem writeByte_eq_ok {m m' : Memory} {a : Address} {b : Byte} :
    m.writeByte a b = .ok m' ↔
      (Config.ramBase ≤ a.toNat ∧ a.toNat < Config.ramBase + m.ram.size) ∧
        m' = { m with ram := deviceWrite m.ram a.toNat b } := by
  have := bounds
  rcases segment_cases a with ⟨hs, h⟩ | ⟨hs, h⟩ | ⟨hs, h⟩ | ⟨hs, h⟩ | ⟨hs, h⟩ <;>
    simp only [Memory.writeByte, hs]
  · simp; omega
  · simp; omega
  · simp; omega
  · simp; omega
  · by_cases hb : a.toNat < Config.ramBase + m.ram.size
    · simp only [hb, if_true, Except.ok.injEq, h, and_self, true_and]; exact eq_comm
    · simp only [hb, if_false, and_false, false_and]; exact ⟨nofun, nofun⟩

/-- A byte reads as it was last written and a write reaches no other address, nor any error (R64, R77). -/
theorem readByte_writeByte {m m' : Memory} {a : Address} {b : Byte} (h : m.writeByte a b = .ok m')
    (x : Address) : m'.readByte x = if a = x then .ok b else m.readByte x := by
  obtain ⟨⟨h1, h2⟩, rfl⟩ := writeByte_eq_ok.1 h
  have := bounds
  by_cases hx : a = x
  · subst hx
    rcases segment_cases a with ⟨hs, h⟩ | ⟨hs, h⟩ | ⟨hs, h⟩ | ⟨hs, h⟩ | ⟨hs, h⟩ <;> try omega
    simp [Memory.readByte, hs, deviceRead_deviceWrite, h2]
  · have ne : a.toNat ≠ x.toNat := fun e => hx (BitVec.eq_of_toNat_eq e)
    rcases segment_cases x with ⟨hs, h⟩ | ⟨hs, h⟩ | ⟨hs, h⟩ | ⟨hs, h⟩ | ⟨hs, h⟩ <;>
      simp only [Memory.readByte, hs, if_neg hx, deviceWrite_size]
    rw [deviceRead_deviceWrite, if_neg (by omega)]
    rfl

theorem writeByte_rom {m m' : Memory} {a : Address} {b : Byte} (h : m.writeByte a b = .ok m') :
    m'.rom = m.rom := by
  obtain ⟨_, rfl⟩ := writeByte_eq_ok.1 h; rfl

theorem writeByte_ram_size {m m' : Memory} {a : Address} {b : Byte} (h : m.writeByte a b = .ok m') :
    m'.ram.size = m.ram.size := by
  obtain ⟨_, rfl⟩ := writeByte_eq_ok.1 h; rfl

theorem writeByte_wf {m m' : Memory} {a : Address} {b : Byte} (hm : m.wf) (h : m.writeByte a b = .ok m') :
    m'.wf := by
  obtain ⟨hr, rfl⟩ := writeByte_eq_ok.1 h
  exact ⟨hm.1, deviceWrite_wf hm.2 hr b⟩

/-- A byte read completes exactly inside the ROM device of the ROM segment or inside the RAM device (R63). -/
theorem readByte_eq_ok {m : Memory} {a : Address} {b : Byte} :
    m.readByte a = .ok b ↔
      (Config.romBase ≤ a.toNat ∧ a.toNat ≤ Config.romLast ∧
        a.toNat < Config.romBase + m.rom.size ∧ b = deviceRead m.rom a.toNat) ∨
      (Config.ramBase ≤ a.toNat ∧ a.toNat < Config.ramBase + m.ram.size ∧
        b = deviceRead m.ram a.toNat) := by
  have := bounds
  rcases segment_cases a with ⟨hs, h⟩ | ⟨hs, h⟩ | ⟨hs, h⟩ | ⟨hs, h⟩ | ⟨hs, h⟩ <;>
    simp only [Memory.readByte, hs]
  · simp; omega
  · simp; omega
  · have hn : ¬ Config.ramBase ≤ a.toNat := by omega
    by_cases hb : a.toNat < Config.romBase + m.rom.size
    · simp only [hb, if_true, Except.ok.injEq, h, hn, true_and, false_and, or_false]; exact eq_comm
    · simp only [hb, if_false, hn, false_and, and_false, or_false]; exact ⟨nofun, nofun⟩
  · simp; omega
  · have hn : ¬ a.toNat ≤ Config.romLast := by omega
    by_cases hb : a.toNat < Config.ramBase + m.ram.size
    · simp only [hb, if_true, Except.ok.injEq, h, hn, true_and, false_and, and_false, false_or]
      exact eq_comm
    · simp only [hb, if_false, hn, false_and, and_false, or_false]; exact ⟨nofun, nofun⟩

/-- No single-byte read reports an overflow. -/
theorem readByte_ne_overflow (m : Memory) (a : Address) : m.readByte a ≠ .error .memoryOverflow := by
  unfold Memory.readByte
  cases segment a <;> dsimp only <;> (try split_ifs) <;> simp

/-- No single-byte write reports an overflow. -/
theorem writeByte_ne_overflow (m : Memory) (a : Address) (b : Byte) :
    m.writeByte a b ≠ .error .memoryOverflow := by
  unfold Memory.writeByte
  cases segment a <;> dsimp only <;> (try split_ifs) <;> simp

/-! ### Many bytes -/

/-- A run of reads completes exactly when every byte exists and can be read (R67). -/
theorem readBytes_eq_ok {m : Memory} {a n : Nat} {bs : List Byte} :
    m.readBytes a n = .ok bs ↔
      bs.length = n ∧ ∀ i (h : i < bs.length), a + i ≤ Config.maxAddress ∧
        m.readByte (BitVec.ofNat 64 (a + i)) = .ok bs[i] := by
  induction n generalizing a bs with
  | zero =>
    cases bs with
    | nil => simp [Memory.readBytes]
    | cons b bs => simp [Memory.readBytes]
  | succ n ih =>
    cases bs with
    | nil =>
      simp only [Memory.readBytes, List.length_nil]
      split_ifs
      · simp
      · split
        · simp
        · split <;> simp
    | cons b bs =>
      simp only [Memory.readBytes]
      split_ifs with hov
      · simp only [false_iff, not_and]
        intro _ hall
        have := (hall 0 (by simp)).1
        simp only [Nat.add_zero] at this
        omega
      · constructor
        · intro h
          split at h
          · cases h
          · rename_i b' hb
            split at h
            · cases h
            · rename_i bs' hbs
              simp only [Except.ok.injEq, List.cons.injEq] at h
              obtain ⟨rfl, rfl⟩ := h
              obtain ⟨hl, hall⟩ := ih.1 hbs
              refine ⟨by simp [hl], fun i hi => ?_⟩
              cases i with
              | zero => simpa using ⟨by omega, hb⟩
              | succ i =>
                have := hall i (by simpa using hi)
                simpa [Nat.add_assoc, Nat.add_comm 1] using this
        · rintro ⟨hl, hall⟩
          have h0 := (hall 0 (by simp)).2
          simp only [Nat.add_zero, List.getElem_cons_zero] at h0
          have hrest : m.readBytes (a + 1) n = .ok bs := ih.2 ⟨by simpa using hl, fun i hi => by
            have := hall (i + 1) (by simpa using hi)
            simpa [Nat.add_assoc, Nat.add_comm 1] using this⟩
          rw [h0]; simp only [hrest]

/-- A run of reads that fails reports its first failing byte (R67, R76). -/
theorem readBytes_eq_error {m : Memory} {a n : Nat} {e : MemError} (h : m.readBytes a n = .error e) :
    ∃ k < n, (∀ i < k, a + i ≤ Config.maxAddress ∧ ∃ b, m.readByte (BitVec.ofNat 64 (a + i)) = .ok b) ∧
      ((Config.maxAddress < a + k ∧ e = .memoryOverflow) ∨
        (a + k ≤ Config.maxAddress ∧ m.readByte (BitVec.ofNat 64 (a + k)) = .error e)) := by
  induction n generalizing a with
  | zero => cases h
  | succ n ih =>
    simp only [Memory.readBytes] at h
    split_ifs at h with hov
    · cases h; exact ⟨0, by omega, by simp, Or.inl ⟨by simpa using hov, rfl⟩⟩
    · split at h
      · rename_i e' he
        cases h; exact ⟨0, by omega, by simp, Or.inr ⟨by simpa using hov, by simpa using he⟩⟩
      · rename_i b hb
        split at h
        · rename_i e' he
          cases h
          obtain ⟨k, hk, hall, hend⟩ := ih he
          refine ⟨k + 1, by omega, fun i hi => ?_, ?_⟩
          · cases i with
            | zero => simpa using ⟨by omega, b, hb⟩
            | succ i => simpa [Nat.add_assoc, Nat.add_comm 1] using hall i (by omega)
          · simpa [Nat.add_assoc, Nat.add_comm 1] using hend
        · cases h

/-- What a run of writes can do (R68, R72): it writes its first `k` bytes, all of them in the RAM device,
and stops there only because the next byte's address does not exist or cannot be written. -/
theorem writeBytes_spec (m : Memory) (a : Nat) (bs : List Byte) :
    ∃ k ≤ bs.length,
      (∀ i < k, a + i ≤ Config.maxAddress ∧ Config.ramBase ≤ a + i ∧
        a + i < Config.ramBase + m.ram.size) ∧
      (m.writeBytes a bs).1.rom = m.rom ∧
      (m.writeBytes a bs).1.ram.size = m.ram.size ∧
      (m.wf → (m.writeBytes a bs).1.wf) ∧
      (∀ x : Address, (m.writeBytes a bs).1.readByte x =
        if a ≤ x.toNat ∧ x.toNat < a + k then .ok (bs.getD (x.toNat - a) 0) else m.readByte x) ∧
      (((m.writeBytes a bs).2 = none ∧ k = bs.length) ∨
        (k < bs.length ∧ Config.maxAddress < a + k ∧ (m.writeBytes a bs).2 = some .memoryOverflow) ∨
        (k < bs.length ∧ a + k ≤ Config.maxAddress ∧ ∃ e, (m.writeBytes a bs).2 = some e ∧
          ∀ b, m.writeByte (BitVec.ofNat 64 (a + k)) b = .error e)) := by
  induction bs generalizing m a with
  | nil =>
    refine ⟨0, le_rfl, by simp, rfl, rfl, id, fun x => ?_, Or.inl ⟨rfl, rfl⟩⟩
    rw [if_neg (by omega)]; rfl
  | cons b bs ih =>
    by_cases hov : Config.maxAddress < a
    · have e : m.writeBytes a (b :: bs) = (m, some .memoryOverflow) := by
        simp only [Memory.writeBytes, if_pos hov]
      rw [e]
      refine ⟨0, by simp, by simp, rfl, rfl, id, fun x => ?_, Or.inr (Or.inl ⟨by simp, by simpa using hov, rfl⟩)⟩
      rw [if_neg (by omega)]
    · cases hw : m.writeByte (BitVec.ofNat 64 a) b with
      | error e =>
        have e' : m.writeBytes a (b :: bs) = (m, some e) := by
          simp only [Memory.writeBytes, if_neg hov, hw]
        rw [e']
        refine ⟨0, by simp, by simp, rfl, rfl, id, fun x => ?_, Or.inr (Or.inr
          ⟨by simp, by omega, e, rfl, fun b' => ?_⟩)⟩
        · rw [if_neg (by omega)]
        · rw [Nat.add_zero]
          revert hw
          unfold Memory.writeByte
          cases segment (BitVec.ofNat 64 a) <;> dsimp only <;> (try split_ifs) <;> simp
      | ok m' =>
        have e' : m.writeBytes a (b :: bs) = m'.writeBytes (a + 1) bs := by
          simp only [Memory.writeBytes, if_neg hov, hw]
        have toNat_a : (BitVec.ofNat 64 a).toNat = a := by
          have := bounds
          simp only [BitVec.toNat_ofNat]; apply Nat.mod_eq_of_lt; omega
        have hin := (writeByte_eq_ok.1 hw).1
        rw [toNat_a] at hin
        obtain ⟨k, hk, hall, hrom, hsize, hwf, hread, hend⟩ := ih m' (a + 1)
        rw [e']
        refine ⟨k + 1, by simpa using hk, fun i hi => ?_, hrom.trans (writeByte_rom hw),
          hsize.trans (writeByte_ram_size hw), fun h => hwf (writeByte_wf h hw), fun x => ?_, ?_⟩
        · cases i with
          | zero => simp only [Nat.add_zero]; omega
          | succ i =>
            have := hall i (by omega)
            rw [writeByte_ram_size hw] at this
            omega
        · rw [hread x, readByte_writeByte hw x]
          have hx : BitVec.ofNat 64 a = x ↔ a = x.toNat :=
            ⟨fun h => by rw [← h, toNat_a], fun h => BitVec.eq_of_toNat_eq (by rw [toNat_a, h])⟩
          by_cases h0 : a = x.toNat
          · rw [if_neg (by omega), if_pos (hx.2 h0), if_pos (by omega)]
            simp [h0]
          · rw [if_neg (fun h => h0 (hx.1 h))]
            by_cases h1 : a + 1 ≤ x.toNat ∧ x.toNat < a + 1 + k
            · rw [if_pos h1, if_pos (by omega), show x.toNat - a = (x.toNat - (a + 1)) + 1 by omega]
              simp
            · rw [if_neg h1, if_neg (by omega)]
        · have same : ∀ y b' e, m'.writeByte y b' = .error e → m.writeByte y b' = .error e := by
            intro y b' e
            unfold Memory.writeByte
            rw [writeByte_ram_size hw]
            cases segment y <;> dsimp only <;> (try split_ifs) <;> simp
          have ak : a + (k + 1) = a + 1 + k := by omega
          rw [ak]
          rcases hend with ⟨h1, h2⟩ | ⟨h1, h2, h3⟩ | ⟨h1, h2, e, h3, h4⟩
          · exact Or.inl ⟨h1, by simp [h2]⟩
          · exact Or.inr (Or.inl ⟨by simpa using h1, h2, h3⟩)
          · exact Or.inr (Or.inr ⟨by simpa using h1, h2, e, h3, fun b' => same _ _ _ (h4 b')⟩)

/-- A write of a value: the shape `writeBytes_spec` gives, with the value's own bytes. -/
theorem write_spec (m : Memory) (a : Address) (n : Nat) (v : BitVec (8 * n)) :
    ∃ k ≤ n,
      (∀ i < k, a.toNat + i ≤ Config.maxAddress ∧ Config.ramBase ≤ a.toNat + i ∧
        a.toNat + i < Config.ramBase + m.ram.size) ∧
      (m.write a n v).1.rom = m.rom ∧
      (m.write a n v).1.ram.size = m.ram.size ∧
      (m.wf → (m.write a n v).1.wf) ∧
      (∀ x : Address, (m.write a n v).1.readByte x =
        if a.toNat ≤ x.toNat ∧ x.toNat < a.toNat + k then
          .ok (v.extractLsb' (8 * (x.toNat - a.toNat)) 8) else m.readByte x) ∧
      (((m.write a n v).2 = none ∧ k = n) ∨
        (k < n ∧ Config.maxAddress < a.toNat + k ∧ (m.write a n v).2 = some .memoryOverflow) ∨
        (k < n ∧ a.toNat + k ≤ Config.maxAddress ∧ ∃ e, (m.write a n v).2 = some e ∧
          ∀ b, m.writeByte (BitVec.ofNat 64 (a.toNat + k)) b = .error e)) := by
  obtain ⟨k, hk, hall, hrom, hsize, hwf, hread, hend⟩ := writeBytes_spec m a.toNat (leBytes v n)
  simp only [leBytes_length] at hk hend
  refine ⟨k, hk, hall, hrom, hsize, hwf, fun x => ?_, hend⟩
  rw [show (m.write a n v).1 = (m.writeBytes a.toNat (leBytes v n)).1 from rfl, hread x]
  split_ifs with h
  · congr 1
    rw [List.getD_eq_getElem _ _ (by simp only [leBytes_length]; omega), leBytes_getElem]
  · rfl

theorem zero_wf {m : Memory} (h : m.wf) : m.zero.wf :=
  ⟨h.1, List.Pairwise.nil, fun _ hc => absurd hc (by simp [Memory.zero])⟩

/-! ### The MMU as the core calls it -/

theorem readByte_eq_next {s : State} {a : Address} {b : Byte} :
    readByte s a = .next b ↔ s.mem.readByte a = .ok b := by
  unfold readByte; cases s.mem.readByte a <;> simp

theorem writeByte_eq_next {s t : State} {a : Address} {b : Byte} :
    writeByte s a b = .next t ↔ ∃ m, s.mem.writeByte a b = .ok m ∧ t = setMem s m := by
  unfold writeByte; cases s.mem.writeByte a b <;> simp [eq_comm]

theorem writeByte_eq_fault {s : State} {a : Address} {b : Byte} {f : Fault} :
    writeByte s a b = .fault f ↔ ∃ e, s.mem.writeByte a b = .error e ∧ f = memFault e s := by
  unfold writeByte; cases s.mem.writeByte a b <;> simp [eq_comm]

theorem memRead_eq_next {s : State} {a : Address} {n : Nat} {v : BitVec (8 * n)} :
    memRead s a n = .next v ↔ s.mem.read a n = .ok v := by
  unfold memRead; cases s.mem.read a n <;> simp

theorem memRead_eq_fault {s : State} {a : Address} {n : Nat} {f : Fault} :
    memRead s a n = .fault f ↔ ∃ e, s.mem.read a n = .error e ∧ f = memFault e s := by
  unfold memRead; cases s.mem.read a n <;> simp [eq_comm]

/-- A read is never refused. -/
theorem memRead_ne_refused {s : State} {a : Address} {n : Nat} {q : Refusal} :
    memRead s a n ≠ .refused q := by
  unfold memRead; cases s.mem.read a n <;> simp

theorem memWrite_eq_next {s t : State} {a : Address} {n : Nat} {v : BitVec (8 * n)} :
    memWrite s a n v = .next t ↔ (s.mem.write a n v).2 = none ∧ t = setMem s (s.mem.write a n v).1 := by
  unfold memWrite
  rcases s.mem.write a n v with ⟨m, _ | e⟩ <;> simp [eq_comm]

theorem memWrite_eq_fault {s : State} {a : Address} {n : Nat} {v : BitVec (8 * n)} {f : Fault} :
    memWrite s a n v = .fault f ↔
      ∃ e, (s.mem.write a n v).2 = some e ∧ f = memFault e (setMem s (s.mem.write a n v).1) := by
  unfold memWrite
  rcases s.mem.write a n v with ⟨m, _ | e⟩ <;> simp [eq_comm]

/-- A write is never refused. -/
theorem memWrite_ne_refused {s : State} {a : Address} {n : Nat} {v : BitVec (8 * n)} {q : Refusal} :
    memWrite s a n v ≠ .refused q := by
  unfold memWrite
  rcases s.mem.write a n v with ⟨m, _ | e⟩ <;> simp

/-! ### Fetch -/

/-- Fetch completes exactly when `PC + 16` exists and the word can be read; it latches the word and
advances `PC` (R131). -/
theorem fetch_eq_next {s t : State} :
    fetch s = .next t ↔
      s.pc.toNat + 16 ≤ Config.maxAddress ∧ ∃ w : Word, s.mem.read s.pc 16 = .ok w ∧ t = latch s w := by
  unfold fetch
  split_ifs with h
  · simp only [false_iff, not_and]; omega
  · rw [andThen_eq_next]
    simp only [memRead_eq_next]
    constructor
    · rintro ⟨w, hw, hs⟩; cases hs; exact ⟨by omega, w, hw, rfl⟩
    · rintro ⟨_, w, hw, rfl⟩; exact ⟨w, hw, rfl⟩

/-- A fetch that faults leaves the state it began in (R131, R135). -/
theorem fetch_eq_fault {s : State} {f : Fault} :
    fetch s = .fault f ↔
      (Config.maxAddress < s.pc.toNat + 16 ∧ f = .programCounterOverflow s) ∨
      (s.pc.toNat + 16 ≤ Config.maxAddress ∧ ∃ e, s.mem.read s.pc 16 = .error e ∧ f = memFault e s) := by
  unfold fetch
  split_ifs with h
  · simp only [Host.Outcome.fault.injEq, h, true_and, eq_comm (a := f)]
    constructor
    · exact Or.inl
    · rintro (h' | ⟨h', _⟩)
      · exact h'
      · omega
  · rw [andThen_eq_fault]
    simp only [memRead_eq_fault, reduceCtorEq, and_false, exists_false, or_false, h, false_and, false_or]
    exact ⟨fun hf => ⟨by omega, hf⟩, fun hf => hf.2⟩

theorem fetch_ne_refused {s : State} {q : Refusal} : fetch s ≠ .refused q := by
  unfold fetch
  split_ifs
  · simp
  · rw [Ne, andThen_eq_refused]
    rintro (h | ⟨w, _, h⟩)
    · exact memRead_ne_refused h
    · cases h

/-! ### The register file -/

theorem generalIndex_eq_some {i : RegIndex} {k : Fin 26} : generalIndex i = some k ↔ i.toNat = k := by
  unfold generalIndex
  split_ifs with h
  · simp [Fin.ext_iff]
  · simp only [false_iff]; omega

theorem generalIndex_eq_none {i : RegIndex} : generalIndex i = none ↔ 26 ≤ i.toNat := by
  unfold generalIndex
  split_ifs with h
  · simp only [false_iff]; omega
  · simp only [true_iff]; omega

/-- `Writable(i)` completes exactly for the general registers (R25). -/
theorem writable_eq_next {s : State} {i : RegIndex} {k : Fin 26} :
    writable s i = .next k ↔ i.toNat = k := by
  rw [← generalIndex_eq_some]
  unfold writable
  cases generalIndex i with
  | none => dsimp only; split_ifs <;> simp
  | some k' => simp

/-- The two faults of `Writable(i)` leave the state as it is (R25). -/
theorem writable_eq_fault {s : State} {i : RegIndex} {f : Fault} :
    writable s i = .fault f ↔ 26 ≤ i.toNat ∧
      ((i = s.cfg.idxZero ∨ i = s.cfg.idxOne ∨ i = s.cfg.idxTwo) ∧ f = .writeToReadOnlyRegister i s ∨
        ¬(i = s.cfg.idxZero ∨ i = s.cfg.idxOne ∨ i = s.cfg.idxTwo) ∧ f = .invalidRegister i s) := by
  rw [← generalIndex_eq_none]
  unfold writable
  cases generalIndex i with
  | none =>
    dsimp only
    split_ifs with h
    · simp [h, eq_comm]
    · simp [h, eq_comm]
  | some k => simp

theorem writable_ne_refused {s : State} {i : RegIndex} {q : Refusal} : writable s i ≠ .refused q := by
  unfold writable
  cases generalIndex i with
  | none => dsimp only; split_ifs <;> simp
  | some k => simp

/-- A register read that completes reads a general register or a constant (R24). -/
theorem readReg_eq_next {s : State} {i : RegIndex} {v : Word} (h : readReg s i = .next v) :
    (∃ k : Fin 26, i.toNat = k ∧ v = getG s k) ∨
      26 ≤ i.toNat ∧ (i = s.cfg.idxZero ∧ v = 0 ∨ i = s.cfg.idxOne ∧ v = 1 ∨ i = s.cfg.idxTwo ∧ v = 2) := by
  unfold readReg at h
  cases hk : generalIndex i with
  | some k =>
    simp only [hk, Host.Outcome.next.injEq] at h
    exact Or.inl ⟨k, generalIndex_eq_some.1 hk, h.symm⟩
  | none =>
    refine Or.inr ⟨generalIndex_eq_none.1 hk, ?_⟩
    simp only [hk] at h
    split_ifs at h <;> simp_all

/-- A register read that faults leaves the state as it is (R24). -/
theorem readReg_eq_fault {s : State} {i : RegIndex} {f : Fault} (h : readReg s i = .fault f) :
    26 ≤ i.toNat ∧ f = .invalidRegister i s := by
  unfold readReg at h
  cases hk : generalIndex i with
  | some k => simp [hk] at h
  | none =>
    refine ⟨generalIndex_eq_none.1 hk, ?_⟩
    simp only [hk] at h
    split_ifs at h
    simp_all

theorem readReg_ne_refused {s : State} {i : RegIndex} {q : Refusal} : readReg s i ≠ .refused q := by
  unfold readReg
  cases generalIndex i with
  | none => dsimp only; split_ifs <;> simp
  | some k => simp

end Sys2Proof.Machine
end

