-- ==== Sys2Proof/Laws/Step.lean ====
section
/-! SUPPORT. Everything a meaning and a step can do, once each, so that claims about all instructions
unfold none of them. -/

namespace Sys2Proof.Machine

/-- A meaning that completes changes nothing, or writes one general register, or writes memory (R38). -/
theorem exec_eq_next {i : Instr} {s t : State} (h : exec i s = .next t) :
    t = s ∨ (∃ k v, t = setG s k v) ∨
      ∃ f v, i = .store f ∧ (s.mem.write (addressOf f) 16 v).2 = none ∧
        t = setMem s (s.mem.write (addressOf f) 16 v).1 := by
  cases i with
  | null f => exact Or.inl (by simpa [exec, execNull] using h.symm)
  | setLo f =>
    obtain ⟨k, _, hk⟩ := andThen_eq_next.1 h
    exact Or.inr (Or.inl ⟨k, _, by simpa using hk.symm⟩)
  | setHi f =>
    obtain ⟨k, _, hk⟩ := andThen_eq_next.1 h
    exact Or.inr (Or.inl ⟨k, _, by simpa using hk.symm⟩)
  | load f =>
    obtain ⟨k, _, hk⟩ := andThen_eq_next.1 h
    obtain ⟨v, _, hv⟩ := andThen_eq_next.1 hk
    exact Or.inr (Or.inl ⟨k, v, by simpa using hv.symm⟩)
  | store f =>
    obtain ⟨v, _, hv⟩ := andThen_eq_next.1 h
    obtain ⟨hn, ht⟩ := memWrite_eq_next.1 hv
    exact Or.inr (Or.inr ⟨f, v, rfl, hn, ht⟩)

/-- A meaning that faults leaves the state it began in, but for a Store's written prefix (R135). -/
theorem exec_eq_fault {i : Instr} {s : State} {f : Fault} (h : exec i s = .fault f) :
    resume f = s ∨
      ∃ g v e, i = .store g ∧ (s.mem.write (addressOf g) 16 v).2 = some e ∧
        f = memFault e (setMem s (s.mem.write (addressOf g) 16 v).1) := by
  have reg : ∀ {r : RegIndex} {f : Fault}, writable s r = .fault f → resume f = s := by
    intro r f hf
    obtain ⟨_, ⟨_, rfl⟩ | ⟨_, rfl⟩⟩ := writable_eq_fault.1 hf <;> rfl
  cases i with
  | null g => simp [exec, execNull] at h
  | setLo g =>
    rcases andThen_eq_fault.1 h with h | ⟨_, _, h⟩
    · exact Or.inl (reg h)
    · cases h
  | setHi g =>
    rcases andThen_eq_fault.1 h with h | ⟨_, _, h⟩
    · exact Or.inl (reg h)
    · cases h
  | load g =>
    rcases andThen_eq_fault.1 h with h | ⟨_, _, h⟩
    · exact Or.inl (reg h)
    · rcases andThen_eq_fault.1 h with h | ⟨_, _, h⟩
      · obtain ⟨e, _, rfl⟩ := memRead_eq_fault.1 h
        exact Or.inl (resume_memFault e s)
      · cases h
  | store g =>
    rcases andThen_eq_fault.1 h with h | ⟨v, _, h⟩
    · obtain ⟨_, rfl⟩ := readReg_eq_fault h
      exact Or.inl rfl
    · obtain ⟨e, he, rfl⟩ := memWrite_eq_fault.1 h
      exact Or.inr ⟨g, v, e, rfl, he, rfl⟩

/-- No meaning refuses. -/
theorem exec_ne_refused {i : Instr} {s : State} {q : Refusal} : exec i s ≠ .refused q := by
  intro h
  cases i with
  | null g => simp [exec, execNull] at h
  | setLo g =>
    rcases andThen_eq_refused.1 h with h | ⟨_, _, h⟩
    · exact writable_ne_refused h
    · cases h
  | setHi g =>
    rcases andThen_eq_refused.1 h with h | ⟨_, _, h⟩
    · exact writable_ne_refused h
    · cases h
  | load g =>
    rcases andThen_eq_refused.1 h with h | ⟨_, _, h⟩
    · exact writable_ne_refused h
    · rcases andThen_eq_refused.1 h with h | ⟨_, _, h⟩
      · exact memRead_ne_refused h
      · cases h
  | store g =>
    rcases andThen_eq_refused.1 h with h | ⟨_, _, h⟩
    · exact readReg_ne_refused h
    · exact memWrite_ne_refused h

/-- A step with its cost completes exactly so (R130, R134). -/
theorem stepWithCost_eq_next {s t : State} {c : Nat} :
    stepWithCost s = .next (t, c) ↔
      s.runState = .running ∧ s.pc.toNat + 16 ≤ Config.maxAddress ∧
        ∃ w i, s.mem.read s.pc 16 = .ok w ∧ decode w = .ok i ∧ exec i (latch s w) = .next t ∧
          c = s.cfg.cycles.cost i := by
  unfold stepWithCost
  cases s.runState with
  | uninitialized => simp
  | running =>
    simp only [andThen_eq_next, fetch_eq_next, true_and]
    constructor
    · rintro ⟨s₁, ⟨hpc, w, hw, rfl⟩, h⟩
      simp only [latch_ir] at h
      cases hd : decode w with
      | error e => cases e; simp [hd] at h
      | ok i =>
        simp only [hd, andThen_eq_next] at h
        obtain ⟨s₂, h₂, h₃⟩ := h
        simp only [Host.Outcome.next.injEq, Prod.mk.injEq] at h₃
        obtain ⟨rfl, rfl⟩ := h₃
        exact ⟨hpc, w, i, hw, hd, h₂, rfl⟩
    · rintro ⟨hpc, w, i, hw, hd, he, rfl⟩
      refine ⟨latch s w, ⟨hpc, w, hw, rfl⟩, ?_⟩
      simp only [latch_ir, hd, he, andThen_next]

/-- A step faults exactly so (R130, R135). -/
theorem stepWithCost_eq_fault {s : State} {f : Fault} :
    stepWithCost s = .fault f ↔
      s.runState = .running ∧ (fetch s = .fault f ∨
        s.pc.toNat + 16 ≤ Config.maxAddress ∧ ∃ w : Word, s.mem.read s.pc 16 = .ok w ∧
          ((∃ op, decode w = .error (.invalidOpCode op) ∧ f = .invalidOpCode op (latch s w)) ∨
            ∃ i, decode w = .ok i ∧ exec i (latch s w) = .fault f)) := by
  unfold stepWithCost
  cases s.runState with
  | uninitialized => simp
  | running =>
    simp only [andThen_eq_fault, fetch_eq_next, true_and]
    refine or_congr_right ?_
    constructor
    · rintro ⟨s₁, ⟨hpc, w, hw, rfl⟩, h⟩
      refine ⟨hpc, w, hw, ?_⟩
      simp only [latch_ir] at h
      cases hd : decode w with
      | error e =>
        cases e with
        | invalidOpCode op => exact Or.inl ⟨op, rfl, by simpa [hd] using h.symm⟩
      | ok i =>
        refine Or.inr ⟨i, rfl, ?_⟩
        simp only [hd, andThen_eq_fault] at h
        rcases h with h | ⟨_, _, h⟩
        · exact h
        · cases h
    · rintro ⟨hpc, w, hw, h⟩
      refine ⟨latch s w, ⟨hpc, w, hw, rfl⟩, ?_⟩
      simp only [latch_ir]
      rcases h with ⟨op, hd, rfl⟩ | ⟨i, hd, he⟩
      · simp [hd]
      · simp [hd, he]

/-- Everything a step that completes can do. -/
theorem step_eq_next {s t : State} :
    step s = .next t ↔
      s.runState = .running ∧ s.pc.toNat + 16 ≤ Config.maxAddress ∧
        ∃ w i, s.mem.read s.pc 16 = .ok w ∧ decode w = .ok i ∧ exec i (latch s w) = .next t := by
  unfold step
  simp only [andThen_eq_next, Prod.exists, Host.Outcome.next.injEq, exists_and_right]
  constructor
  · rintro ⟨t', ⟨c, h⟩, rfl⟩
    obtain ⟨h1, h2, w, i, h3, h4, h5, _⟩ := stepWithCost_eq_next.1 h
    exact ⟨h1, h2, w, i, h3, h4, h5⟩
  · rintro ⟨h1, h2, w, i, h3, h4, h5⟩
    exact ⟨t, ⟨_, stepWithCost_eq_next.2 ⟨h1, h2, w, i, h3, h4, h5, rfl⟩⟩, rfl⟩

/-- The fault of a step is the fault of the step with its cost. -/
theorem step_eq_fault {s : State} {f : Fault} : step s = .fault f ↔ stepWithCost s = .fault f := by
  unfold step; simp [andThen_eq_fault]

/-- A step is refused before the first reset and never else (R35). -/
theorem step_eq_refused {s : State} {q : Refusal} :
    step s = .refused q ↔ s.runState = .uninitialized ∧ q = .uninitialized := by
  unfold step
  simp only [andThen_eq_refused, reduceCtorEq, and_false, exists_false, or_false]
  unfold stepWithCost
  cases s.runState with
  | uninitialized => simp [eq_comm]
  | running =>
    simp only [andThen_eq_refused, reduceCtorEq, false_and, iff_false, not_or, not_exists, not_and]
    refine ⟨fetch_ne_refused, fun s₁ _ h => ?_⟩
    cases hd : decode s₁.ir with
    | error e => cases e; simp [hd] at h
    | ok i =>
      simp only [hd, andThen_eq_refused, reduceCtorEq, and_false, exists_false, or_false] at h
      exact exec_ne_refused h

end Sys2Proof.Machine
end

