-- ==== Sys2Proof/Laws/Pacer.lean ====
section
/-! SUPPORT. What the pacer's operations can do, once each, and that no rule of the core reads the pacer:
every operation commutes with `setPacer` (45_clock_pacer.md R192, R193, R196). -/

namespace Sys2Proof.Machine

/-! ### The pacer's own operations -/

/-- A poll at a positive frequency leaves the state as it was, or changes `last_grant` and grants. -/
theorem poll_cases {s : State} (now : Rat) (h : 0 < s.pacer.clockHz) :
    (crossed s.pacer now = false ∧ poll now s = .next (s, false)) ∨
      (crossed s.pacer now = true ∧ ∃ last,
        poll now s = .next (setPacer s { s.pacer with lastGrant := last }, true)) := by
  unfold poll
  rw [if_pos h]
  cases hc : crossed s.pacer now with
  | false => exact Or.inl ⟨rfl, rfl⟩
  | true => exact Or.inr ⟨rfl, _, rfl⟩

/-- A poll at any other frequency is refused. -/
theorem poll_refused {s : State} (now : Rat) (h : s.pacer.clockHz ≤ 0) :
    poll now s = .refused .clockNotPositive :=
  if_neg (not_lt.2 h)

theorem runIteration_uninitialized {s : State} (now : Rat) (h : s.runState = .uninitialized) :
    runIteration now s = .refused .uninitialized := by
  unfold runIteration; rw [h]

theorem runIteration_running {s : State} (now : Rat) (h : s.runState = .running) :
    runIteration now s = andThen (poll now s) fun r => if r.2 then tick r.1 else .next r.1 := by
  unfold runIteration; rw [h]

/-- A granted tick only pays, or is one step. -/
theorem tick_cases (s : State) :
    (s.pacer.owed ≠ 0 ∧ tick s = .next (setPacer s { s.pacer with owed := s.pacer.owed - 1 })) ∨
    (s.pacer.owed = 0 ∧ tick s = andThen (stepWithCost s) fun r =>
      .next (setPacer r.1 { r.1.pacer with owed := r.2 - 1 })) := by
  unfold tick
  by_cases h : s.pacer.owed = 0
  · rw [if_pos h]; exact Or.inr ⟨h, rfl⟩
  · rw [if_neg h]; exact Or.inl ⟨h, rfl⟩

/-- The start of a run changes the pacer alone, or is refused. -/
theorem startRun_cases (hz : Rat) (s : State) :
    (s.runState = .running ∧ 0 < hz ∧
      ∃ p : Pacer, p.clockHz = hz ∧ p.owed = 0 ∧ startRun hz s = .next (setPacer s p)) ∨
    (s.runState = .uninitialized ∧ startRun hz s = .refused .uninitialized) ∨
    (s.runState = .running ∧ hz ≤ 0 ∧ startRun hz s = .refused .clockNotPositive) := by
  unfold startRun
  cases s.runState with
  | uninitialized => exact Or.inr (Or.inl ⟨rfl, rfl⟩)
  | running =>
    dsimp only
    by_cases h : 0 < hz
    · rw [if_pos h]; exact Or.inl ⟨rfl, h, _, rfl, rfl, rfl⟩
    · rw [if_neg h]; exact Or.inr (Or.inr ⟨rfl, not_lt.1 h, rfl⟩)

/-! ### Nothing reads the pacer -/

theorem memFault_setPacer (e : MemError) (s : State) (p : Pacer) :
    memFault e (setPacer s p) = leaving (memFault e s) (setPacer s p) := by
  cases e <;> rfl

@[simp] theorem resume_leaving (f : Fault) (s : State) : resume (leaving f s) = s := by
  cases f <;> rfl

/-- A result with `p` in the pacer of every state it holds, where `g` puts it into a value. -/
def repaced {α : Type} (g : α → α) (p : Pacer) (r : Result α) : Result α :=
  match r with
  | .next a => .next (g a)
  | .fault f => .fault (leaving f (setPacer (resume f) p))
  | .refused q => .refused q

theorem writable_setPacer (s : State) (p : Pacer) (i : RegIndex) :
    writable (setPacer s p) i = repaced id p (writable s i) := by
  unfold writable
  cases generalIndex i with
  | some k => rfl
  | none =>
    by_cases h : i = s.cfg.idxZero ∨ i = s.cfg.idxOne ∨ i = s.cfg.idxTwo
    · simp only [if_pos h]; exact if_pos h
    · simp only [if_neg h]; exact if_neg h

theorem readReg_setPacer (s : State) (p : Pacer) (i : RegIndex) :
    readReg (setPacer s p) i = repaced id p (readReg s i) := by
  unfold readReg
  cases generalIndex i with
  | some k => rfl
  | none =>
    by_cases h : i = s.cfg.idxZero
    · simp only [if_pos h]; exact if_pos h
    · by_cases h1 : i = s.cfg.idxOne
      · simp only [if_neg h, if_pos h1]; exact (if_neg h).trans (if_pos h1)
      · by_cases h2 : i = s.cfg.idxTwo
        · simp only [if_neg h, if_neg h1, if_pos h2]
          exact (if_neg h).trans ((if_neg h1).trans (if_pos h2))
        · simp only [if_neg h, if_neg h1, if_neg h2]
          exact (if_neg h).trans ((if_neg h1).trans (if_neg h2))

theorem memRead_setPacer (s : State) (p : Pacer) (a : Address) (n : Nat) :
    memRead (setPacer s p) a n = repaced id p (memRead s a n) := by
  unfold memRead
  simp only [setPacer_mem]
  cases s.mem.read a n with
  | ok v => rfl
  | error e => simp [repaced, memFault_setPacer]

theorem memWrite_setPacer (s : State) (p : Pacer) (a : Address) (n : Nat) (v : BitVec (8 * n)) :
    memWrite (setPacer s p) a n v = repaced (setPacer · p) p (memWrite s a n v) := by
  unfold memWrite
  simp only [setPacer_mem]
  rcases s.mem.write a n v with ⟨m, _ | e⟩
  · rfl
  · simp only [repaced]
    show Host.Outcome.fault (memFault e (setPacer (setMem s m) p)) = _
    simp [memFault_setPacer]

theorem exec_setPacer (i : Instr) (s : State) (p : Pacer) :
    exec i (setPacer s p) = repaced (setPacer · p) p (exec i s) := by
  cases i with
  | null f => rfl
  | setLo f =>
    show andThen (writable (setPacer s p) f.target) _ = repaced _ p (andThen (writable s f.target) _)
    rw [writable_setPacer]; cases writable s f.target <;> rfl
  | setHi f =>
    show andThen (writable (setPacer s p) f.target) _ = repaced _ p (andThen (writable s f.target) _)
    rw [writable_setPacer]; cases writable s f.target <;> rfl
  | load f =>
    show andThen (writable (setPacer s p) f.target) _ = repaced _ p (andThen (writable s f.target) _)
    rw [writable_setPacer]
    cases writable s f.target with
    | next k =>
      show andThen (memRead (setPacer s p) f.immediate 16) _ =
        repaced _ p (andThen (memRead s f.immediate 16) _)
      rw [memRead_setPacer]; cases memRead s f.immediate 16 <;> rfl
    | fault f => rfl
    | refused q => rfl
  | store f =>
    show andThen (readReg (setPacer s p) f.target) _ = repaced _ p (andThen (readReg s f.target) _)
    rw [readReg_setPacer]
    cases readReg s f.target with
    | next v => exact memWrite_setPacer _ _ _ _ _
    | fault f => rfl
    | refused q => rfl

theorem fetch_setPacer (s : State) (p : Pacer) :
    fetch (setPacer s p) = repaced (setPacer · p) p (fetch s) := by
  unfold fetch
  show (if Config.maxAddress < s.pc.toNat + 16 then _ else _) = _
  split_ifs
  · rfl
  · show andThen (memRead (setPacer s p) s.pc 16) _ = _
    rw [memRead_setPacer]; cases memRead s s.pc 16 <;> rfl

/-- The step and its cost do not depend on the pacer (R196). -/
theorem stepWithCost_setPacer (s : State) (p : Pacer) :
    stepWithCost (setPacer s p) = repaced (fun r => (setPacer r.1 p, r.2)) p (stepWithCost s) := by
  unfold stepWithCost
  simp only [setPacer_runState, setPacer_cfg]
  cases s.runState with
  | uninitialized => rfl
  | running =>
    simp only [fetch_setPacer]
    cases fetch s with
    | fault f => rfl
    | refused q => rfl
    | next u =>
      simp only [repaced, andThen_next, setPacer_ir]
      cases decode u.ir with
      | error e => cases e; rfl
      | ok i =>
        simp only [exec_setPacer]
        cases exec i u <;> rfl

end Sys2Proof.Machine
end

