-- ==== Sys2Proof/Laws/PerInstr.lean ====
section
/-! SUPPORT. A law of every instruction as syntax, one lemma a constructor: the top 16 bits of its word are
the `opcode` field it keeps (30_encoding.md R101, R110). -/

namespace Sys2Proof.Laws.OpcodeField

/-- The opcode of the encoded word is the kept field. -/
def Statement (i : Instr) : Prop := (encode i).extractLsb' 112 16 = i.fields.opcode

theorem of_fields (f : Fields) : (encodeFields f).extractLsb' 112 16 = f.opcode := by
  apply BitVec.eq_of_getLsbD_eq
  intro i hi
  have h : ∀ k : Nat, 16 ≤ k → k ≤ 112 → 112 + i - k < 128 ∧ ¬ (112 + i < k) := by omega
  simp only [encodeFields, BitVec.getLsbD_extractLsb', BitVec.getLsbD_or, BitVec.getLsbD_shiftLeft,
    BitVec.getLsbD_setWidth, hi, decide_true, Bool.true_and]
  rw [BitVec.getLsbD_of_ge f.operandA _ (by omega), BitVec.getLsbD_of_ge f.operandB _ (by omega),
    BitVec.getLsbD_of_ge f.target _ (by omega), BitVec.getLsbD_of_ge f.shiftAmount _ (by omega),
    BitVec.getLsbD_of_ge f.reserved _ (by omega), BitVec.getLsbD_of_ge f.immediate _ (by omega)]
  simp [show 112 + i < 128 by omega, show i < 128 by omega]

theorem null (f : Fields) : Statement (.null f) := of_fields f

theorem setLo (f : Fields) : Statement (.setLo f) := of_fields f

theorem setHi (f : Fields) : Statement (.setHi f) := of_fields f

theorem load (f : Fields) : Statement (.load f) := of_fields f

theorem store (f : Fields) : Statement (.store f) := of_fields f

end Sys2Proof.Laws.OpcodeField
end

