-- ==== Sys2Proof/Laws/Stack.lean ====
section
/-! SUPPORT. What the stack micro-operations can do, once each (44_stack_primitives.md R181, R182). -/

namespace Sys2Proof.Machine

theorem readByte_eq_fault {s : State} {a : Address} {f : Fault} :
    readByte s a = .fault f ↔ ∃ e, s.mem.readByte a = .error e ∧ f = memFault e s := by
  unfold readByte; cases s.mem.readByte a <;> simp [eq_comm]

theorem readByte_ne_refused {s : State} {a : Address} {q : Refusal} : readByte s a ≠ .refused q := by
  unfold readByte; cases s.mem.readByte a <;> simp

theorem writeByte_ne_refused {s : State} {a : Address} {b : Byte} {q : Refusal} :
    writeByte s a b ≠ .refused q := by
  unfold writeByte; cases s.mem.writeByte a b <;> simp

/-- `SP[7:0]` as a number. -/
theorem spLow_eq_iff {s : State} {b : BitVec 8} : spLow s = b ↔ s.sp.toNat % 256 = b.toNat := by
  unfold spLow
  rw [← BitVec.toNat_inj]
  simp

/-- A push completes exactly so. -/
theorem push_eq_next {s t : State} {b : Byte} :
    push b s = .next t ↔ s.sp.toNat % 256 ≠ 0xFF ∧
      ∃ m, s.mem.writeByte (stackAddress s) b = .ok m ∧ t = setSp (setMem s m) (s.sp + 1) := by
  unfold push
  simp only [andThen_eq_next, writeByte_eq_next]
  constructor
  · rintro ⟨_, ⟨m, hm, rfl⟩, h⟩
    split_ifs at h with hc
    refine ⟨fun hn => hc (spLow_eq_iff.2 hn), m, hm, ?_⟩
    cases h; rfl
  · rintro ⟨hc, m, hm, rfl⟩
    exact ⟨_, ⟨m, hm, rfl⟩, if_neg fun h => hc (by simpa using spLow_eq_iff.1 h)⟩

/-- A push faults exactly so. -/
theorem push_eq_fault {s : State} {b : Byte} {f : Fault} :
    push b s = .fault f ↔
      (∃ e, s.mem.writeByte (stackAddress s) b = .error e ∧ f = memFault e s) ∨
      s.sp.toNat % 256 = 0xFF ∧
        ∃ m, s.mem.writeByte (stackAddress s) b = .ok m ∧ f = .stackOverflow (setMem s m) := by
  unfold push
  simp only [andThen_eq_fault, writeByte_eq_fault, writeByte_eq_next]
  refine or_congr_right ⟨?_, ?_⟩
  · rintro ⟨_, ⟨m, hm, rfl⟩, h⟩
    split_ifs at h with hc
    refine ⟨by simpa using spLow_eq_iff.1 hc, m, hm, ?_⟩
    cases h; rfl
  · rintro ⟨hc, m, hm, rfl⟩
    exact ⟨_, ⟨m, hm, rfl⟩, if_pos (spLow_eq_iff.2 hc)⟩

/-- A push is never refused. -/
theorem push_ne_refused {s : State} {b : Byte} {q : Refusal} : push b s ≠ .refused q := by
  intro h
  rcases andThen_eq_refused.1 h with h | ⟨u, _, h⟩
  · exact writeByte_ne_refused h
  · split_ifs at h

/-- A pull completes exactly so. -/
theorem pull_eq_next {s t : State} {b : Byte} :
    pull s = .next (t, b) ↔ s.sp.toNat % 256 ≠ 0 ∧ t = setSp s (s.sp - 1) ∧
      s.mem.readByte (stackAddress t) = .ok b := by
  unfold pull
  by_cases hc : s.sp.toNat % 256 = 0
  · rw [if_pos (spLow_eq_iff.2 hc)]; simp [hc]
  · rw [if_neg fun h => hc (by simpa using spLow_eq_iff.1 h)]
    simp only [andThen_eq_next, readByte_eq_next, ne_eq, hc, not_false_eq_true, true_and]
    constructor
    · rintro ⟨_, hb, h⟩; cases h; exact ⟨rfl, hb⟩
    · rintro ⟨rfl, hb⟩; exact ⟨b, hb, rfl⟩

/-- A pull faults exactly so. -/
theorem pull_eq_fault {s : State} {f : Fault} :
    pull s = .fault f ↔ s.sp.toNat % 256 = 0 ∧ f = .stackUnderflow s ∨
      s.sp.toNat % 256 ≠ 0 ∧ ∃ e, s.mem.readByte (stackAddress (setSp s (s.sp - 1))) = .error e ∧
        f = memFault e (setSp s (s.sp - 1)) := by
  unfold pull
  by_cases hc : s.sp.toNat % 256 = 0
  · rw [if_pos (spLow_eq_iff.2 hc)]; simp [hc, eq_comm]
  · rw [if_neg fun h => hc (by simpa using spLow_eq_iff.1 h)]
    simp [andThen_eq_fault, readByte_eq_fault, hc]

/-- A pull is never refused. -/
theorem pull_ne_refused {s : State} {q : Refusal} : pull s ≠ .refused q := by
  intro h
  unfold pull at h
  split_ifs at h
  rcases andThen_eq_refused.1 h with h | ⟨u, _, h⟩
  · exact readByte_ne_refused h
  · cases h

end Sys2Proof.Machine
end

