-- ==== Sys2Proof/Tests/Slice0.lean ====
section
/-! SUPPORT. Tests on words and states of spec/95_test_vectors.md (the vector's id stands at each test), the
well-formedness smoke test, and for every statement with hypotheses a witness that meets them together. -/

open Sys2Proof Sys2Proof.Machine

/-! ### Helpers -/

namespace Sys2Proof.Tests

/-- Reset with a ROM image and a RAM size. -/
def booted (image : List Byte) (ramSize : Nat) : State :=
  { State.reset with mem := { rom := deviceOf 0x100000 image, ram := { size := ramSize, cells := [] } } }

/-- Reset with one word as the ROM image (95_test_vectors.md 2.2). -/
def booted1 (w : Word) : State := booted (leBytes w 16) 32

/-- The value of a result that completes. -/
def nextOf {α : Type} (r : Result α) : Option α :=
  match r with
  | .next a => some a
  | .fault _ => none
  | .refused _ => none

/-- The fault of a result that faults. -/
def faultOf {α : Type} (r : Result α) : Option Fault :=
  match r with
  | .next _ => none
  | .fault f => some f
  | .refused _ => none

theorem exists_next {α : Type} {r : Result α} (h : (nextOf r).isSome = true) : ∃ t, r = .next t := by
  cases r with
  | next t => exact ⟨t, rfl⟩
  | fault f => cases h
  | refused q => cases h

theorem exists_fault {α : Type} {r : Result α} (h : (faultOf r).isSome = true) : ∃ f, r = .fault f := by
  cases r with
  | next t => cases h
  | fault f => exact ⟨f, rfl⟩
  | refused q => cases h

/-- The decoded instruction of a word that decodes. -/
def decoded (w : Word) : Option Instr :=
  match decode w with
  | .ok i => some i
  | .error _ => none

/-- A field record with a target and an immediate. -/
def fieldsFor (op : BitVec 16) (t : RegIndex) (imm : Half) : Fields := ⟨op, 0, 0, t, 0, 0, imm⟩

end Sys2Proof.Tests

open Sys2Proof.Tests

/-! ### Well-formedness: a term for each variant that its check refuses -/

theorem test_wf_null : (Instr.null ⟨0xF010, 0, 0, 0, 0, 0, 0⟩).wellFormed = false := by decide
theorem test_wf_setLo : (Instr.setLo ⟨0xF011, 0, 0, 5, 0, 0, 1⟩).wellFormed = false := by decide
theorem test_wf_setHi : (Instr.setHi ⟨0xF010, 0, 0, 5, 0, 0, 1⟩).wellFormed = false := by decide
theorem test_wf_load : (Instr.load ⟨0xF012, 0, 0, 5, 0, 0, 1⟩).wellFormed = false := by decide
theorem test_wf_store : (Instr.store ⟨0, 0, 0, 5, 0, 0, 1⟩).wellFormed = false := by decide
theorem test_wf_accepts : (Instr.store ⟨0xF020, 0xFF, 1, 0xFF, 2, 0xFFFF, 3⟩).wellFormed = true := by decide

/-! ### Decoding -/

/-- V2: every field kept, none checked. -/
theorem test_decode_null : decode 0x0000FFFFFFFFFFFFFFFFFFFFFFFFFFFF =
    .ok (.null ⟨0, 0xFF, 0xFF, 0xFF, 0xFF, 0xFFFF, 0xFFFFFFFFFFFFFFFF⟩) := by decide
/-- V3, S15. -/
theorem test_decode_setLo : decode 0xF0100000050000000000000000001234 =
    .ok (.setLo (fieldsFor 0xF010 5 0x1234)) := by decide
/-- V5. -/
theorem test_decode_setHi : decode 0xF011000005000000000000000000ABCD =
    .ok (.setHi (fieldsFor 0xF011 5 0xABCD)) := by decide
/-- V6. -/
theorem test_decode_load : decode 0xF0130000020000000000000300000000 =
    .ok (.load (fieldsFor 0xF013 2 0x300000000)) := by decide
/-- V7. -/
theorem test_decode_store : decode 0xF0200000010000000000000300000000 =
    .ok (.store (fieldsFor 0xF020 1 0x300000000)) := by decide
/-- V8 to V11. -/
theorem test_decode_unknown :
    [0xF012, 0xFFFF, 0x0001, 0xF00F, 0xF014, 0xF01F, 0xF021].all (fun op : BitVec 16 =>
      decode (op.zeroExtend 128 <<< 112) = .error (.invalidOpCode op)) = true := by decide
/-- V13: the fields are isolated. -/
theorem test_decode_isolated : decode 0xF010FF00FF00FFFF0000000000000000 =
    .ok (.setLo ⟨0xF010, 0xFF, 0, 0xFF, 0, 0xFFFF, 0⟩) := by decide
/-- V14: the byte layout. -/
theorem test_decode_bytes :
    decodeBytes [0x34, 0x12, 0, 0, 0, 0, 0, 0, 0, 0, 0, 5, 0, 0, 0x10, 0xF0, 0xAB] =
      .ok (.setLo (fieldsFor 0xF010 5 0x1234), [0xAB]) := by decide
/-- R100: fewer than 16 bytes are no instruction. -/
theorem test_decode_truncated : decodeBytes [0x34, 0x12] = .error (.truncated 2) := by decide
/-- V15. -/
theorem test_encode : encode (.load (fieldsFor 0xF013 2 0x300000000)) = 0xF0130000020000000000000300000000 := by
  decide
/-- The host's question about a table row. -/
theorem test_decodeTableWord : decodeTableWord 128 0xF0110000050000000000000000000077 =
    some (.setHi (fieldsFor 0xF011 5 0x77)) := by decide

/-! ### One step -/

/-- V20. -/
theorem test_null : nextOf (step (booted1 0)) = some { booted1 0 with pc := 0x100010 } := by decide
/-- V21: no carry into bit 64. -/
theorem test_setLo_top : (nextOf (step (booted1 0xF010000000000000FFFFFFFFFFFFFFFF))).map (·.g[0]) =
    some 0xFFFFFFFFFFFFFFFF := by decide
/-- S15: the high half stays. -/
theorem test_setLo_keeps :
    (nextOf (execSetLo (fieldsFor 0xF010 5 0x1234)
      (setG State.reset 5 0xFFFFFFFFFFFFFFFF0000000000000000))).map (·.g[5]) =
      some 0xFFFFFFFFFFFFFFFF0000000000001234 := by decide
/-- V28: the low half stays. -/
theorem test_setHi_keeps :
    (nextOf (execSetHi (fieldsFor 0xF011 5 0xABCD)
      (setG State.reset 5 0xFFFFFFFFFFFFFFFF0000000000001234))).map (·.g[5]) =
      some 0x000000000000ABCD0000000000001234 := by decide
/-- V27. -/
theorem test_setHi_constant : (faultOf (step (booted1 0xF01100001B0000000000000000000005))).map
    (fun f => (leaving f State.reset, (resume f).pc)) =
      some (.writeToReadOnlyRegister 27 State.reset, 0x100010) := by decide
/-- V37: an unaligned load across the end of the word. -/
theorem test_load_unaligned :
    (nextOf (step (booted (leBytes (0xF0130000010000000000000000100001 : Word) 16 ++ [0xAB]) 32))).map
      (·.g[1]) = some 0xABF01300000100000000000000001000 := by decide
/-- V36. -/
theorem test_load_beyond : (faultOf (step (booted1 0xF0130000010000000000000000100001))).map
    (fun f => (leaving f State.reset, (resume f).g[1])) =
      some (.invalidAddress 0x100010 State.reset, 0) := by decide
/-- V51: an unaligned store of the constant 2. -/
theorem test_store_constant : (nextOf (step (booted1 0xF02000001C0000000000000300000003))).map
    (·.mem.ram.cells) = some [(0x300000003, 2)] := by decide
/-- V52: a torn store; the written prefix is in the state the fault leaves. -/
theorem test_store_torn : (faultOf (step (booted1 0xF02000001B0000000000000300000014))).map
    (fun f => (leaving f State.reset, (resume f).mem.ram.cells)) =
      some (.invalidAddress 0x300000020 State.reset, [(0x300000014, 1)]) := by decide
/-- V8, R202: an unknown opcode in a step. -/
theorem test_invalid_opcode : (faultOf (step (booted1 0xF0120000050000000000000000000077))).map
    (fun f => (leaving f State.reset, (resume f).ir)) =
      some (.invalidOpCode 0xF012 State.reset, 0xF0120000050000000000000000000077) := by decide

/-! ### Fetch -/

/-- V61: the lowest PC that overflows. -/
theorem test_fetch_overflow : faultOf (step { booted1 0 with pc := 0xFFFFFFFFFFFFFFF0 }) =
    some (.programCounterOverflow { booted1 0 with pc := 0xFFFFFFFFFFFFFFF0 }) := by decide
/-- V62: the highest PC that does not. -/
theorem test_fetch_no_overflow : faultOf (step { booted1 0 with pc := 0xFFFFFFFFFFFFFFEF }) =
    some (.invalidAddress 0xFFFFFFFFFFFFFFEF { booted1 0 with pc := 0xFFFFFFFFFFFFFFEF }) := by decide
/-- The host places a word and the next step runs it. -/
theorem test_withFetchWord : (nextOf (step (State.reset.withFetchWord 128 0xF0100000190000000000000000000005))).map
    (·.g[25]) = some 5 := by decide

/-! ### The MMU -/

/-- V75, V77. -/
theorem test_memRead : let m := (booted [0xDE, 0xAD, 0xBE, 0xEF] 4).mem
    m.read 0x100000 4 = .ok 0xEFBEADDE ∧ m.read 0x100002 4 = .error (.invalidAddress 0x100004) := by decide
/-- V80, V81. -/
theorem test_memWrite : let m := ((booted [] 4).mem.write 0x300000000 4 0x11223344).1
    m.ram.cells = [(0x300000000, 0x44), (0x300000001, 0x33), (0x300000002, 0x22), (0x300000003, 0x11)] ∧
    (m.write 0x300000002 4 0xAABBCCDD).2 = some (.invalidAddress 0x300000004) ∧
    (m.write 0x300000002 4 0xAABBCCDD).1.ram.cells =
      [(0x300000000, 0x44), (0x300000001, 0x33), (0x300000002, 0xDD), (0x300000003, 0xCC)] := by decide
/-- V86. -/
theorem test_memRead_overflow :
    (booted [] 0xFFFFFFFD00000000).mem.read 0xFFFFFFFFFFFFFFFF 2 = .error .memoryOverflow := by decide

/-! ### The stack -/

/-- V93, V94. -/
theorem test_words : (nextOf (pushWord 0x1234 State.reset)).map (fun t => (t.mem.ram.cells, t.sp,
    (nextOf (pullWord t)).map (fun r => (r.1.sp, r.2)))) =
      some ([(0x300000000, 0x34), (0x300000001, 0x12)], 2, some (0, 0x1234)) := by decide
/-- V96: the byte is written before the overflow is raised. -/
theorem test_push_full : (faultOf (push 0xEE (setSp State.reset 0xFF))).map
    (fun f => (leaving f State.reset, (resume f).mem.ram.cells, (resume f).sp)) =
      some (.stackOverflow State.reset, [(0x3000000FF, 0xEE)], 0xFF) := by decide

/-! ### The pacer -/

/-- V101: a store of cost 3 owes 2 more ticks after the one that issued it. -/
theorem test_tick : let s := booted1 0xF02000001C0000000000000300000003
    (nextOf (tick { s with cfg := { s.cfg with cycles := { s.cfg.cycles with store := 3 } } })).map
      (·.pacer.owed) = some 2 := by decide

/-! ### Witnesses: every statement's hypotheses can be met, clause by clause -/

theorem witness_DecodeEncodeRoundTrip :
    (Instr.setHi ⟨0xF011, 1, 2, 3, 4, 5, 6⟩).wellFormed = true ∧
      (Instr.null ⟨0, 0xFF, 0xFF, 0xFF, 0xFF, 0xFFFF, 0xFFFFFFFFFFFFFFFF⟩).wellFormed = true := by decide

theorem witness_EncodeDecodeRoundTrip :
    decode 0xF0200000010000000000000300000000 = .ok (.store (fieldsFor 0xF020 1 0x300000000)) := by decide

theorem witness_DecodeIsTotalByOpcode :
    (0x00000000000000000000000000000000 : Word).extractLsb' 112 16 = 0x0000 ∧
    (0xF0100000050000000000000000001234 : Word).extractLsb' 112 16 = 0xF010 ∧
    (0xF011000005000000000000000000ABCD : Word).extractLsb' 112 16 = 0xF011 ∧
    (0xF0130000020000000000000300000000 : Word).extractLsb' 112 16 = 0xF013 ∧
    (0xF0200000010000000000000300000000 : Word).extractLsb' 112 16 = 0xF020 ∧
    (0xF0120000050000000000000000000077 : Word).extractLsb' 112 16 ∉
      [(0x0000 : BitVec 16), 0xF010, 0xF011, 0xF013, 0xF020] := by decide

theorem witness_WordLayoutInMemory :
    (booted1 0xF0100000050000000000000000001234).mem.read 0x100000 16 =
      .ok 0xF0100000050000000000000000001234 := by decide

theorem witness_ReadByteBySegment :
    (0xF : Address).toNat ≤ 0xF ∧
    (0x10 ≤ (0xFFFFF : Address).toNat ∧ (0xFFFFF : Address).toNat ≤ 0xFFFFF) ∧
    ((0x100000 : Address).toNat = 0x100000 + 0 ∧ 0 < (booted [0xDE] 4).mem.rom.size) ∧
    ((0x1FFFFFFFF : Address).toNat = 0x100000 + 0x1FFEFFFFF ∧
      (booted [0xDE] 4).mem.rom.size ≤ 0x1FFEFFFFF) ∧
    (0x200000000 ≤ (0x2FFFFFFFF : Address).toNat ∧ (0x2FFFFFFFF : Address).toNat ≤ 0x2FFFFFFFF) ∧
    ((0x300000003 : Address).toNat = 0x300000000 + 3 ∧ 3 < (booted [0xDE] 4).mem.ram.size) ∧
    ((0x300000004 : Address).toNat = 0x300000000 + 4 ∧ (booted [0xDE] 4).mem.ram.size ≤ 4) := by decide

theorem witness_WriteByteBySegment :
    (0xF : Address).toNat ≤ 0xF ∧
    (0x10 ≤ (0xFFFFF : Address).toNat ∧ (0xFFFFF : Address).toNat ≤ 0xFFFFF) ∧
    (0x100000 ≤ (0x1FFFFFFFF : Address).toNat ∧ (0x1FFFFFFFF : Address).toNat ≤ 0x1FFFFFFFF) ∧
    (0x200000000 ≤ (0x2FFFFFFFF : Address).toNat ∧ (0x2FFFFFFFF : Address).toNat ≤ 0x2FFFFFFFF) ∧
    ((0x300000003 : Address).toNat = 0x300000000 + 3 ∧ 3 < (booted [] 4).mem.ram.size) ∧
    ((0x300000004 : Address).toNat = 0x300000000 + 4 ∧ (booted [] 4).mem.ram.size ≤ 4) := by decide

/-- A read that completes and one that fails. -/
theorem witness_MemReadByBytes : (booted [0xDE, 0xAD] 4).mem.read 0x100000 2 = .ok 0xADDE ∧
    (booted [0xDE, 0xAD] 4).mem.read 0x100001 2 = .error (.invalidAddress 0x100002) := by decide

theorem witness_MemWriteByBytes :
    (∃ t, memWrite (booted [] 4) 0x300000000 4 0x11223344 = .next t) ∧
      ∃ f, memWrite (booted [] 4) 0x300000002 4 0x11223344 = .fault f :=
  ⟨exists_next (by decide), exists_fault (by decide)⟩

theorem witness_WrittenValueReadsBack :
    ∃ t, memWrite (booted [] 4) 0x300000000 4 0x11223344 = .next t := exists_next (by decide)

theorem witness_CrossingAccessFails :
    (0x2FFFFFFFF : Address).toNat + 1 ≤ 0xFFFFFFFFFFFFFFFF ∧
      segment 0x2FFFFFFFF ≠ segment (BitVec.ofNat 64 ((0x2FFFFFFFF : Address).toNat + 1)) := by decide

theorem witness_ZeroClearsRamOnly :
    0x300000000 ≤ (0x300000003 : Address).toNat ∧
      (0x300000003 : Address).toNat < 0x300000000 + (booted [] 4).mem.ram.size := by decide

theorem witness_GeneralRegistersAreIndependent :
    (25 : RegIndex).toNat ≤ 25 ∧ (0 : RegIndex).toNat ≤ 25 ∧ (0 : RegIndex) ≠ 25 := by decide

theorem witness_RegisterReadByClass : State.reset.cfg.wf ∧ 26 ≤ (29 : RegIndex).toNat ∧
    (29 : RegIndex) ≠ State.reset.cfg.idxZero ∧ (29 : RegIndex) ≠ State.reset.cfg.idxOne ∧
    (29 : RegIndex) ≠ State.reset.cfg.idxTwo := by decide

theorem witness_RegisterWriteByClass : State.reset.cfg.wf ∧
    (26 : RegIndex) ∈ [State.reset.cfg.idxZero, State.reset.cfg.idxOne, State.reset.cfg.idxTwo] ∧
    26 ≤ (255 : RegIndex).toNat ∧ (255 : RegIndex) ≠ State.reset.cfg.idxZero ∧
    (255 : RegIndex) ≠ State.reset.cfg.idxOne ∧ (255 : RegIndex) ≠ State.reset.cfg.idxTwo := by decide

theorem witness_NullChangesNothing :
    let s := booted1 0x0000FFFFFFFFFFFFFFFFFFFFFFFFFFFF
    s.runState = .running ∧ s.pc.toNat + 16 ≤ 0xFFFFFFFFFFFFFFFF ∧
      s.mem.read s.pc 16 = .ok 0x0000FFFFFFFFFFFFFFFFFFFFFFFFFFFF ∧
      (0x0000FFFFFFFFFFFFFFFFFFFFFFFFFFFF : Word).extractLsb' 112 16 = 0 := by decide

theorem witness_SetLoReplacesLowHalf : (fieldsFor 0xF010 25 0x1234).target.toNat = (25 : Fin 26) := by decide

theorem witness_SetHiReplacesHighHalf : (fieldsFor 0xF011 0 0xABCD).target.toNat = (0 : Fin 26) := by decide

theorem witness_SetLoSetHiBuildAnyConstant :
    (fieldsFor 0xF010 5 0x1234).target.toNat = (5 : Fin 26) ∧
      (fieldsFor 0xF011 5 0xABCD).target.toNat = (5 : Fin 26) := by decide

theorem witness_WritesToOtherIndicesFault :
    let c := [State.reset.cfg.idxZero, State.reset.cfg.idxOne, State.reset.cfg.idxTwo]
    let f := fieldsFor 0xF013 28 0
    let g := fieldsFor 0xF013 29 0
    (Instr.load f ∈ [Instr.setLo f, Instr.setHi f, Instr.load f] ∧ 26 ≤ f.target.toNat ∧ f.target ∈ c) ∧
      (Instr.load g ∈ [Instr.setLo g, Instr.setHi g, Instr.load g] ∧ 26 ≤ g.target.toNat ∧
        g.target ∉ c) := by decide

theorem witness_LoadReadsSixteenBytes :
    let f := fieldsFor 0xF013 2 0x100000
    let g := fieldsFor 0xF013 2 0x300000010
    (f.target.toNat = (2 : Fin 26) ∧ RomRange (booted1 0).mem f.immediate 16) ∧
      (g.target.toNat = (2 : Fin 26) ∧ RamRange (booted1 0).mem g.immediate 16) := by decide

theorem witness_FailedLoadChangesNothing :
    (fieldsFor 0xF013 1 0x300000011).target.toNat ≤ 25 ∧
      (booted1 0).mem.read (fieldsFor 0xF013 1 0x300000011).immediate 16 =
        .error (.invalidAddress 0x300000020) := by decide

theorem witness_StoreWritesSixteenBytes :
    readReg (booted1 0) (fieldsFor 0xF020 28 0x300000010).target = .next 2 ∧
      RamRange (booted1 0).mem (fieldsFor 0xF020 28 0x300000010).immediate 16 :=
  ⟨rfl, by decide⟩

/-- The second clause needs a RAM device that reaches the highest address. -/
theorem witness_StoreIsTornAtTheEndOfRam :
    let f := fieldsFor 0xF020 27 0x300000014
    let g := fieldsFor 0xF020 27 0xFFFFFFFFFFFFFFF1
    let s := booted [] 32
    let t := booted [] 0xFFFFFFFD00000000
    (readReg s f.target = .next 1 ∧ 0x300000000 ≤ f.immediate.toNat ∧
      f.immediate.toNat < 0x300000000 + s.mem.ram.size ∧
      0x300000000 + s.mem.ram.size ≤ 0xFFFFFFFFFFFFFFFF ∧
      0x300000000 + s.mem.ram.size < f.immediate.toNat + 16) ∧
    (readReg t g.target = .next 1 ∧ 0x300000000 ≤ g.immediate.toNat ∧
      g.immediate.toNat < 0x300000000 + t.mem.ram.size ∧
      0x10000000000000000 ≤ 0x300000000 + t.mem.ram.size ∧
      0x10000000000000000 < g.immediate.toNat + 16) :=
  ⟨⟨rfl, by decide⟩, ⟨rfl, by decide⟩⟩

theorem witness_StoreFaultsBeforeWriting :
    let s := booted [] 32
    let f := fun (t : RegIndex) (a : Half) => fieldsFor 0xF020 t a
    (26 ≤ (f 29 0).target.toNat ∧
      (f 29 0).target ∉ [s.cfg.idxZero, s.cfg.idxOne, s.cfg.idxTwo]) ∧
    readReg s (f 0 0).target = .next 0 ∧
    (f 0 0xF).immediate.toNat ≤ 0xF ∧
    (0x10 ≤ (f 0 0xFFFFF).immediate.toNat ∧ (f 0 0xFFFFF).immediate.toNat ≤ 0xFFFFF) ∧
    (0x100000 ≤ (f 0 0x1FFFFFFFF).immediate.toNat ∧ (f 0 0x1FFFFFFFF).immediate.toNat ≤ 0x1FFFFFFFF) ∧
    (0x200000000 ≤ (f 0 0x2FFFFFFFF).immediate.toNat ∧ (f 0 0x2FFFFFFFF).immediate.toNat ≤ 0x2FFFFFFFF) ∧
    (0x300000000 + s.mem.ram.size ≤ (f 0 0x300000020).immediate.toNat ∧
      0x300000000 ≤ (f 0 0x300000020).immediate.toNat) :=
  ⟨by decide, rfl, by decide⟩

theorem witness_LoadThenStoreBackKeepsMemory :
    let f := fieldsFor 0xF013 2 0x300000010
    let g := fieldsFor 0xF020 2 0x300000010
    (booted1 0).mem.wf ∧ f.target = g.target ∧ f.immediate = g.immediate ∧
      ∃ t u, exec (.load f) (booted1 0) = .next t ∧ exec (.store g) t = .next u := by
  refine ⟨by decide, rfl, rfl, ?_⟩
  obtain ⟨u, hu⟩ := exists_next (r := andThen
    (exec (.load (fieldsFor 0xF013 2 0x300000010)) (booted1 0))
    (exec (.store (fieldsFor 0xF020 2 0x300000010)))) (by decide)
  cases h : exec (.load (fieldsFor 0xF013 2 0x300000010)) (booted1 0) with
  | next t => rw [h] at hu; exact ⟨t, u, rfl, hu⟩
  | fault f => rw [h] at hu; cases hu
  | refused q => rw [h] at hu; cases hu

theorem witness_StoreThenLoadGivesTheValue :
    let f := fieldsFor 0xF020 27 0x300000010
    let g := fieldsFor 0xF013 2 0x300000010
    readReg (booted1 0) f.target = .next 1 ∧ g.target.toNat = (2 : Fin 26) ∧ f.immediate = g.immediate ∧
      ∃ t, exec (.store f) (booted1 0) = .next t :=
  ⟨rfl, rfl, rfl, exists_next (by decide)⟩

theorem witness_RegisterInstructionsFrame :
    let f := fieldsFor 0xF013 2 0x300000010
    Instr.load f ∈ [Instr.setLo f, Instr.setHi f, Instr.load f] ∧ f.target.toNat ≠ (3 : Fin 26) ∧
      ∃ t, exec (.load f) (booted1 0) = .next t :=
  ⟨by decide, by decide, exists_next (by decide)⟩

theorem witness_StoreFrame :
    addressOf (fieldsFor 0xF020 27 0x300000010) = 0x300000010 ∧
      ∃ t, exec (.store (fieldsFor 0xF020 27 0x300000010)) (booted1 0) = .next t :=
  ⟨rfl, exists_next (by decide)⟩

theorem witness_FaultsByInstruction :
    (∃ r, exec (.setLo (fieldsFor 0xF010 26 0)) (booted1 0) = .fault r) ∧
    (∃ r, exec (.setHi (fieldsFor 0xF011 29 0)) (booted1 0) = .fault r) ∧
    (∃ r, exec (.load (fieldsFor 0xF013 1 0xFFFFF)) (booted1 0) = .fault r) ∧
    ∃ r, exec (.store (fieldsFor 0xF020 1 0x300000014)) (booted1 0) = .fault r :=
  ⟨exists_fault (by decide), exists_fault (by decide), exists_fault (by decide), exists_fault (by decide)⟩

theorem witness_StepRunsDecodedInstruction :
    let s := booted1 0xF0200000010000000000000300000000
    s.runState = .running ∧ s.pc.toNat + 16 ≤ 0xFFFFFFFFFFFFFFFF ∧
      s.mem.read s.pc 16 = .ok 0xF0200000010000000000000300000000 ∧
      decode 0xF0200000010000000000000300000000 = .ok (.store (fieldsFor 0xF020 1 0x300000000)) := by decide

theorem witness_RefusedBeforeReset :
    ({ State.reset with runState := .uninitialized } : State).runState = .uninitialized ∧
      (State.reset.runState = .running ∧ (0 : Rat) ≤ 0) ∧
      (let s := setPacer State.reset { State.reset.pacer with clockHz := 0 }
       s.runState = .running ∧ s.pacer.clockHz ≤ 0) := ⟨rfl, ⟨rfl, le_refl _⟩, rfl, le_refl _⟩

theorem witness_FetchRule :
    let s := { booted1 0 with pc := 0xFFFFFFFFFFFFFFF0 }
    let t := { booted1 0 with pc := 0xFFFFFFFFFFFFFFEF }
    0xFFFFFFFFFFFFFFF0 ≤ s.pc.toNat ∧
    (t.pc.toNat < 0xFFFFFFFFFFFFFFF0 ∧ t.mem.read t.pc 16 = .error (.invalidAddress 0xFFFFFFFFFFFFFFEF)) ∧
    ((booted1 0).pc.toNat < 0xFFFFFFFFFFFFFFF0 ∧ (booted1 0).mem.read (booted1 0).pc 16 = .ok 0) := by
  decide

/-- Both sides of the equivalence. -/
theorem witness_InvalidOpcodeFaults :
    let s := booted1 0xF0120000050000000000000000000077
    let u := latch s 0xF0120000050000000000000000000077
    step s = .fault (.invalidOpCode 0xF012 u) ∧
      fetch s = .next u ∧ u = { s with ir := 0xF0120000050000000000000000000077, pc := s.pc + 16 } ∧
      s.runState = .running ∧ 0xF012 = (0xF0120000050000000000000000000077 : Word).extractLsb' 112 16 ∧
      (0xF012 : BitVec 16) ∉ [(0x0000 : BitVec 16), 0xF010, 0xF011, 0xF013, 0xF020] :=
  ⟨rfl, rfl, rfl, rfl, by decide, by decide⟩

theorem witness_ProgramCounterOverflowExactly :
    let s := { booted1 0 with pc := 0xFFFFFFFFFFFFFFF0 }
    s.runState = .running ∧ 0xFFFFFFFFFFFFFFF0 ≤ s.pc.toNat ∧
      ∃ u, step s = .fault (.programCounterOverflow u) :=
  ⟨rfl, by decide, _, rfl⟩

/-- A fetch fault, an unknown opcode and a torn store. -/
theorem witness_FaultedStepLeaves :
    (∃ f, step State.reset = .fault f) ∧
    (∃ f, step (booted1 0xF0120000050000000000000000000077) = .fault f) ∧
    ∃ f, step (booted1 0xF02000001B0000000000000300000014) = .fault f :=
  ⟨exists_fault (by decide), exists_fault (by decide), exists_fault (by decide)⟩

theorem witness_ExecutionIsSequential : ∃ t, step (booted1 0) = .next t := exists_next (by decide)

/-- A step that completes and one that faults. -/
theorem witness_StepNeverTouches :
    (∃ t, StepLeaves (booted1 0xF02000001C0000000000000300000003) t) ∧ ∃ t, StepLeaves State.reset t := by
  obtain ⟨t, ht⟩ := exists_next (r := step (booted1 0xF02000001C0000000000000300000003)) (by decide)
  obtain ⟨f, hf⟩ := exists_fault (r := step State.reset) (by decide)
  exact ⟨⟨t, Or.inl ht⟩, ⟨resume f, Or.inr ⟨f, hf, rfl⟩⟩⟩

theorem witness_FetchSeesTheStore :
    let f := fieldsFor 0xF020 27 0x300000010
    readReg (booted1 0) f.target = .next 1 ∧ f.immediate.toNat + 16 ≤ 0xFFFFFFFFFFFFFFFF ∧
      ∃ t, exec (.store f) (booted1 0) = .next t :=
  ⟨rfl, by decide, exists_next (by decide)⟩

theorem witness_InvariantKeptByEveryStep :
    let s := booted1 0xF02000001B0000000000000300000014
    Inv s ∧ ∃ t, StepLeaves s t := by
  obtain ⟨f, hf⟩ := exists_fault (r := step (booted1 0xF02000001B0000000000000300000014)) (by decide)
  exact ⟨by constructor <;> decide, resume f, Or.inr ⟨f, hf, rfl⟩⟩

theorem witness_InvariantOfReachableStates :
    Reachable (hostCalls [.step, .push 1, .run 2 [1, 2]]
      (reset (powerOn [0xDE] 256 1 0 Params.default))) :=
  ⟨[0xDE], 256, 1, 0, Params.default, _, _, by decide, if_pos (by norm_num), rfl⟩

theorem witness_InvariantKeptByEveryHostCall :
    (Params.default.wf ∧ (0 : Rat) < 1) ∧ Inv State.reset :=
  ⟨⟨by decide, by norm_num⟩, by constructor <;> decide⟩

theorem witness_RomEqualsTheImageForEver : (0 : Rat) < 1 ∧ 1 < [(0xDE : Byte), 0xAD].length :=
  ⟨by norm_num, by decide⟩

theorem witness_ConstructionLeaves : (0 : Rat) < 1 := by norm_num

theorem witness_ResetForgetsTheRun :
    let s := booted1 0
    let t := setSp (setG { booted1 0 with pacer := { s.pacer with owed := 7 } } 3 9) 5
    s.mem.rom = t.mem.rom ∧ s.mem.ram.size = t.mem.ram.size ∧ s.cfg = t.cfg ∧
      { s.pacer with owed := 0 } = { t.pacer with owed := 0 } := ⟨rfl, rfl, rfl, rfl⟩

theorem witness_ResetStateIsReset :
    let s := setSp { State.reset with pc := 0x100020, ir := 7 } 5
    s.cfg = Params.default ∧ s.mem.rom = ⟨0, []⟩ ∧ s.mem.ram.size = 256 ∧
      { s.pacer with owed := 0 } = ⟨0, 0, [], 1, 0⟩ := ⟨rfl, rfl, rfl, rfl⟩

/-- A frequency of 0; then at 1 Hz, after two periods and after none; nothing owed, and one cycle owed. -/
theorem witness_PollGrantsAfterAPeriod :
    (setPacer State.reset { State.reset.pacer with clockHz := 0 }).pacer.clockHz ≤ 0 ∧
    0 < State.reset.pacer.clockHz ∧
    1 / State.reset.pacer.clockHz < (2 : Rat) - State.reset.pacer.lastGrant ∧
    (0 : Rat) - State.reset.pacer.lastGrant < 1 / State.reset.pacer.clockHz ∧
    (poll 0 State.reset = .next (State.reset, false) ∧ State.reset.runState = .running) ∧
    (∃ t, poll 2 State.reset = .next (t, true)) ∧ State.reset.pacer.owed = 0 ∧
    (setPacer State.reset { State.reset.pacer with owed := 1 }).pacer.owed ≠ 0 := by
  have h0 : 0 < State.reset.pacer.clockHz := by norm_num [State.reset]
  have h : (0 : Rat) - State.reset.pacer.lastGrant < 1 / State.reset.pacer.clockHz := by
    simp [State.reset]
  have h2 : 1 / State.reset.pacer.clockHz < (2 : Rat) - State.reset.pacer.lastGrant := by
    norm_num [State.reset]
  have hc : crossed State.reset.pacer 2 = true := by
    unfold crossed period
    rw [decide_eq_true h2, Bool.true_or]
  have hg : ∃ t, poll 2 State.reset = .next (t, true) := ⟨_, (if_pos h0).trans (if_pos hc)⟩
  refine ⟨le_refl _, h0, h2, h, ⟨?_, rfl⟩, hg, rfl, by decide⟩
  have : crossed State.reset.pacer 0 = false := by
    unfold crossed period
    rw [decide_eq_false (not_lt.2 h.le), decide_eq_false h.ne]
    rfl
  unfold poll
  rw [if_pos h0, this]
  rfl

theorem witness_InstructionOccupiesItsCycles :
    (booted1 0).pacer.owed = 0 ∧ (∃ t, stepWithCost (booted1 0) = .next (t, 1)) ∧ 1 ≤ 1 ∧ 1 ≤ 1 :=
  ⟨rfl, ⟨_, rfl⟩, le_refl _, le_refl _⟩

/-- A run over no poll, and one whose first granted tick faults, whatever the grant policy is. -/
theorem witness_RunIsRepeatedSteps :
    (State.reset.runState = .running ∧ (0 : Rat) < 1) ∧ (∃ t, run 1 [] State.reset = .next t) ∧
      ∃ f, run 1 [Config.firstLastGrant 1 + 2] State.reset = .fault f := by
  have h1 : startRun 1 State.reset = .next (setPacer State.reset
      { State.reset.pacer with owed := 0, clockHz := 1, lastGrant := Config.firstLastGrant 1 }) := by
    simp only [startRun, State.reset]
    rw [if_pos (by norm_num)]
  refine ⟨⟨rfl, by norm_num⟩, ⟨_, by unfold run; rw [h1]; rfl⟩, ?_⟩
  have h2 : crossed (setPacer State.reset { State.reset.pacer with
      owed := 0, clockHz := 1, lastGrant := Config.firstLastGrant 1 }).pacer
      (Config.firstLastGrant 1 + 2) = true := by
    unfold crossed period setPacer
    rw [decide_eq_true, Bool.true_or]
    simp only
    linarith
  unfold run
  rw [h1]
  simp only [andThen, runLoop, runIteration, poll, h2, if_true]
  exact ⟨_, rfl⟩

/-- A push that faults, one that completes, and one at 0xFF. -/
theorem witness_PushRule :
    (∃ f, writeByte (booted [] 0) (stackAddress (booted [] 0)) 1 = .fault f) ∧
    ((∃ t, writeByte (setSp State.reset 0xFE) (stackAddress (setSp State.reset 0xFE)) 1 = .next t) ∧
      (setSp State.reset 0xFE).sp.toNat % 256 ≠ 0xFF) ∧
    ((∃ t, writeByte (setSp State.reset 0xFF) (stackAddress (setSp State.reset 0xFF)) 1 = .next t) ∧
      (setSp State.reset 0xFF).sp.toNat % 256 = 0xFF) :=
  ⟨exists_fault (by decide), ⟨exists_next (by decide), by decide⟩, ⟨exists_next (by decide), by decide⟩⟩

/-- An empty stack, a byte that can be read, and one beyond RAM. -/
theorem witness_PullRule :
    State.reset.sp.toNat % 256 = 0 ∧
    ((setSp State.reset 0xFF).sp.toNat % 256 ≠ 0 ∧
      State.reset.mem.readByte (stackAddress { setSp State.reset 0xFF with
        sp := (setSp State.reset 0xFF).sp - 1 }) = .ok 0) ∧
    ((setSp (booted [] 0) 1).sp.toNat % 256 ≠ 0 ∧
      (booted [] 0).mem.readByte (stackAddress { setSp (booted [] 0) 1 with
        sp := (setSp (booted [] 0) 1).sp - 1 }) = .error (.invalidAddress 0x300000000)) := by decide

theorem witness_PulledWordIsThePushedWord : ∃ t, pushWord 0x1234 State.reset = .next t :=
  exists_next (by decide)

theorem witness_StackIsLastInFirstOut : ∃ t, pushAll [1, 2, 3] (setSp State.reset 0xFC) = .next t :=
  exists_next (by decide)

theorem witness_AtMost255Pushes : State.reset.sp = 0 ∧ ∃ t, pushAll [1, 2, 3] State.reset = .next t :=
  ⟨rfl, exists_next (by decide)⟩
end

/-! PROOFS. Registers and ROM (10_state.md R20, R32): the general registers are independent (O15), and the
ROM device is the image for ever (O45). `Leaves`, `KeptByHostPrimitives` and their lemmas are about any
property of the state, not ROM alone. -/

namespace Sys2Proof.Machine

/-! ### The register file by a general index (R24, R25) -/

theorem readReg_general {i : RegIndex} {k : Fin 26} (h : i.toNat = k) (s : State) :
    readReg s i = .next (getG s k) := by
  unfold readReg
  rw [generalIndex_eq_some.2 h]

theorem writeReg_general {i : RegIndex} {k : Fin 26} (h : i.toNat = k) (s : State) (v : Word) :
    writeReg s i v = .next (setG s k v) := by
  unfold writeReg
  rw [writable_eq_next.2 h, andThen_next]

/-- Settles O15: both accesses go to the register the index names, and `getG_setG` compares the two. -/
theorem generalRegistersAreIndependent : Obligations.GeneralRegistersAreIndependent := by
  intro s i v hi
  obtain ⟨k, hk⟩ : ∃ k : Fin 26, i.toNat = k := ⟨⟨i.toNat, by omega⟩, rfl⟩
  refine ⟨setG s k v, writeReg_general hk s v, ?_, rfl, fun j hj hne => ?_⟩
  · rw [readReg_general hk, getG_setG_same]
  · obtain ⟨l, hl⟩ : ∃ l : Fin 26, j.toNat = l := ⟨⟨j.toNat, by omega⟩, rfl⟩
    have hlk : l ≠ k := fun e => hne (BitVec.eq_of_toNat_eq (by rw [hl, hk, e]))
    refine ⟨getG s l, readReg_general hl s, ?_⟩
    rw [readReg_general hl, getG_setG, if_neg hlk]

/-! ### A property of what an operation leaves (R139) -/

/-- The state an operation leaves meets `P`: the one `st` finds in its value, or the one its fault leaves. -/
def Leaves {α : Type} (P : State → Prop) (st : α → State) (r : Result α) : Prop :=
  match r with
  | .next a => P (st a)
  | .fault f => P (resume f)
  | .refused _ => True

section
variable {α β : Type} {P : State → Prop} {st : α → State} {st' : β → State} {r : Result α}

theorem leaves_of_cases (next : ∀ a, r = .next a → P (st a)) (fault : ∀ f, r = .fault f → P (resume f)) :
    Leaves P st r := by
  cases r with
  | next a => exact next a rfl
  | fault f => exact fault f rfl
  | refused q => trivial

theorem Leaves.andThen {k : α → Result β} (h : Leaves P st r) (hk : ∀ a, P (st a) → Leaves P st' (k a)) :
    Leaves P st' (andThen r k) := by
  cases r with
  | next a => exact hk a h
  | fault f => exact h
  | refused q => trivial

/-- An operation's value may be dropped for the state in it. -/
theorem Leaves.dropValue (h : Leaves P st r) : Leaves P id (Machine.andThen r fun a => .next (st a)) :=
  h.andThen fun _ ha => ha

theorem Leaves.stateAfter {s : State} {r : Result State} (h : Leaves P id r) (hs : P s) :
    P (stateAfter s r) := by
  cases r with
  | next t => exact h
  | fault f => exact h
  | refused q => exact hs

end

/-! ### From the operations a host call is made of to every run of calls (R136, R139) -/

/-- What the calls of the host are made of keeps `P`. The pacer's own operations may replace the pacer,
but its frequency only by a positive one (R191). -/
structure KeptByHostPrimitives (P : State → Prop) : Prop where
  step : ∀ s, P s → Leaves P Prod.fst (stepWithCost s)
  push : ∀ b s, P s → Leaves P id (push b s)
  pull : ∀ s, P s → Leaves P Prod.fst (pull s)
  reset : ∀ s, P s → P (reset s)
  pacer : ∀ s p, P s → p.clockHz = s.pacer.clockHz ∨ 0 < p.clockHz → P (setPacer s p)

namespace KeptByHostPrimitives
variable {P : State → Prop} {s : State}

theorem leaves_step (h : KeptByHostPrimitives P) (hs : P s) : Leaves P id (Machine.step s) :=
  (h.step s hs).dropValue

theorem leaves_tick (h : KeptByHostPrimitives P) (hs : P s) : Leaves P id (tick s) := by
  rcases tick_cases s with ⟨_, e⟩ | ⟨_, e⟩ <;> rw [e]
  · exact h.pacer s _ hs (Or.inl rfl)
  · exact (h.step s hs).andThen fun r hr => h.pacer r.1 _ hr (Or.inl rfl)

theorem leaves_poll (h : KeptByHostPrimitives P) (hs : P s) (now : Rat) : Leaves P Prod.fst (poll now s) := by
  by_cases hz : 0 < s.pacer.clockHz
  · rcases poll_cases now hz with ⟨_, e⟩ | ⟨_, last, e⟩ <;> rw [e]
    · exact hs
    · exact h.pacer s _ hs (Or.inl rfl)
  · rw [poll_refused now (not_lt.1 hz)]
    trivial

theorem leaves_runIteration (h : KeptByHostPrimitives P) (hs : P s) (now : Rat) :
    Leaves P id (runIteration now s) := by
  cases hr : s.runState with
  | uninitialized =>
    rw [runIteration_uninitialized now hr]
    trivial
  | running =>
    rw [runIteration_running now hr]
    refine (h.leaves_poll hs now).andThen fun r hr => ?_
    split_ifs
    · exact h.leaves_tick hr
    · exact hr

theorem leaves_startRun (h : KeptByHostPrimitives P) (hs : P s) (hz : Rat) : Leaves P id (startRun hz s) := by
  rcases startRun_cases hz s with ⟨_, hpos, p, rfl, _, e⟩ | ⟨_, e⟩ | ⟨_, _, e⟩ <;> rw [e]
  · exact h.pacer s p hs (Or.inr hpos)
  · trivial
  · trivial

theorem leaves_runLoop (h : KeptByHostPrimitives P) (hs : P s) (times : List Rat) :
    Leaves P id (runLoop times s) := by
  induction times generalizing s with
  | nil => exact hs
  | cons now times ih => exact (h.leaves_runIteration hs now).andThen fun _ ht => ih ht

theorem leaves_run (h : KeptByHostPrimitives P) (hs : P s) (hz : Rat) (times : List Rat) :
    Leaves P id (run hz times s) :=
  (h.leaves_startRun hs hz).andThen fun _ ht => h.leaves_runLoop ht times

theorem leaves_pushWord (h : KeptByHostPrimitives P) (hs : P s) (w : BitVec 16) :
    Leaves P id (pushWord w s) :=
  (h.push _ s hs).andThen fun t ht => h.push _ t ht

theorem leaves_pullWord (h : KeptByHostPrimitives P) (hs : P s) : Leaves P Prod.fst (pullWord s) :=
  (h.pull s hs).andThen fun hi hhi => (h.pull hi.1 hhi).andThen fun _ hlo => hlo

theorem kept_hostCall (h : KeptByHostPrimitives P) (hs : P s) (c : HostCall) : P (hostCall c s) := by
  cases c with
  | reset => exact h.reset s hs
  | step => exact (h.leaves_step hs).stateAfter hs
  | run hz times => exact (h.leaves_run hs hz times).stateAfter hs
  | push b => exact (h.push b s hs).stateAfter hs
  | pull => exact (h.pull s hs).dropValue.stateAfter hs
  | pushWord w => exact (h.leaves_pushWord hs w).stateAfter hs
  | pullWord => exact (h.leaves_pullWord hs).dropValue.stateAfter hs
  | dump => exact hs

theorem kept_hostCalls (h : KeptByHostPrimitives P) (hs : P s) (calls : List HostCall) :
    P (hostCalls calls s) := by
  induction calls generalizing s with
  | nil => exact hs
  | cons c calls ih => exact ih (h.kept_hostCall hs c)

end KeptByHostPrimitives

/-! ### ROM at construction and under the core's operations (R32) -/

theorem write_rom (m : Memory) (a : Address) (n : Nat) (v : BitVec (8 * n)) :
    (m.write a n v).1.rom = m.rom := by
  obtain ⟨_, _, _, hrom, _⟩ := write_spec m a n v
  exact hrom

@[simp] theorem zero_rom (m : Memory) : m.zero.rom = m.rom := rfl

@[simp] theorem deviceOf_size (base : Nat) (bs : List Byte) : (deviceOf base bs).size = bs.length :=
  deviceFill_size _ base bs

theorem deviceRead_deviceOf (base o : Nat) (bs : List Byte) (h : o < bs.length) :
    deviceRead (deviceOf base bs) (base + o) = bs[o] := by
  unfold deviceOf
  rw [deviceRead_deviceFill, if_pos (by omega), Nat.add_sub_cancel_left, List.getD_eq_getElem]

theorem exec_leaves_rom (i : Instr) (s : State) : Leaves (·.mem.rom = s.mem.rom) id (exec i s) := by
  refine leaves_of_cases (fun t h => ?_) (fun f h => ?_)
  · obtain rfl | ⟨_, _, rfl⟩ | ⟨_, _, _, _, rfl⟩ := exec_eq_next h
    · rfl
    · rfl
    · exact write_rom ..
  · obtain h | ⟨_, _, _, _, _, rfl⟩ := exec_eq_fault h
    · rw [h]
    · rw [resume_memFault]
      exact write_rom ..

theorem fetch_leaves_rom (s : State) : Leaves (·.mem.rom = s.mem.rom) id (fetch s) := by
  refine leaves_of_cases (fun t h => ?_) (fun f h => ?_)
  · obtain ⟨_, w, _, rfl⟩ := fetch_eq_next.1 h
    rfl
  · obtain ⟨_, rfl⟩ | ⟨_, e, _, rfl⟩ := fetch_eq_fault.1 h
    · rfl
    · rw [resume_memFault]

theorem stepWithCost_leaves_rom (s : State) : Leaves (·.mem.rom = s.mem.rom) Prod.fst (stepWithCost s) := by
  refine leaves_of_cases (fun ⟨t, c⟩ h => ?_) (fun f h => ?_)
  · obtain ⟨_, _, w, i, _, _, hx, _⟩ := stepWithCost_eq_next.1 h
    have hrom := exec_leaves_rom i (latch s w)
    rwa [hx] at hrom
  · obtain ⟨_, hf | ⟨_, w, _, ⟨_, _, rfl⟩ | ⟨i, _, hx⟩⟩⟩ := stepWithCost_eq_fault.1 h
    · have hrom := fetch_leaves_rom s
      rwa [hf] at hrom
    · rfl
    · have hrom := exec_leaves_rom i (latch s w)
      rwa [hx] at hrom

theorem push_leaves_rom (b : Byte) (s : State) : Leaves (·.mem.rom = s.mem.rom) id (push b s) := by
  refine leaves_of_cases (fun t h => ?_) (fun f h => ?_)
  · obtain ⟨_, m, hm, rfl⟩ := push_eq_next.1 h
    exact writeByte_rom hm
  · obtain ⟨e, _, rfl⟩ | ⟨_, m, hm, rfl⟩ := push_eq_fault.1 h
    · rw [resume_memFault]
    · exact writeByte_rom hm

theorem pull_leaves_rom (s : State) : Leaves (·.mem.rom = s.mem.rom) Prod.fst (pull s) := by
  refine leaves_of_cases (fun ⟨t, b⟩ h => ?_) (fun f h => ?_)
  · obtain ⟨_, rfl, _⟩ := pull_eq_next.1 h
    rfl
  · obtain ⟨_, rfl⟩ | ⟨_, e, _, rfl⟩ := pull_eq_fault.1 h
    · rfl
    · rw [resume_memFault]
      rfl

/-- To hold a given ROM is kept by whatever the host's calls are made of. -/
theorem romKept (rom : Device) : KeptByHostPrimitives (·.mem.rom = rom) where
  step := by rintro s rfl; exact stepWithCost_leaves_rom s
  push := by rintro b s rfl; exact push_leaves_rom b s
  pull := by rintro s rfl; exact pull_leaves_rom s
  reset := fun _ h => h
  pacer := fun _ _ h _ => h

/-- Settles O45: construction fills the device with the image, and every run of host calls keeps it. -/
theorem romEqualsTheImageForEver : Obligations.RomEqualsTheImageForEver := by
  refine ⟨fun image ramSize hz cap cfg hpos => ?_, zero_rom, fun calls s => ?_⟩
  · exact ⟨powerOn image ramSize hz cap cfg, if_pos hpos, deviceOf_size _ image,
      fun o h => deviceRead_deviceOf _ o image h⟩
  · exact (romKept s.mem.rom).kept_hostCalls rfl calls

end Sys2Proof.Machine

/-! PROOFS. Encoding (30_encoding.md R101 to R110): the fields and the word as numbers, field extraction and
`Encode` as inverses (O2, O5), and when `decode` answers which variant (O3, O4). -/

namespace Sys2Proof

/-! ### The seven fields and the word, as numbers (R102, R110) -/

/-- A field of a word is the word's number shifted and masked. -/
theorem extractLsb'_toNat_eq (w : Word) (k n : Nat) :
    (w.extractLsb' k n).toNat = w.toNat / 2 ^ k % 2 ^ n := by
  rw [BitVec.extractLsb'_toNat, Nat.shiftRight_eq_div_pow]

theorem fieldsOf_opcode_toNat (w : Word) : (fieldsOf w).opcode.toNat = w.toNat / 2 ^ 112 % 2 ^ 16 :=
  extractLsb'_toNat_eq w 112 16

theorem fieldsOf_operandA_toNat (w : Word) : (fieldsOf w).operandA.toNat = w.toNat / 2 ^ 104 % 2 ^ 8 :=
  extractLsb'_toNat_eq w 104 8

theorem fieldsOf_operandB_toNat (w : Word) : (fieldsOf w).operandB.toNat = w.toNat / 2 ^ 96 % 2 ^ 8 :=
  extractLsb'_toNat_eq w 96 8

theorem fieldsOf_target_toNat (w : Word) : (fieldsOf w).target.toNat = w.toNat / 2 ^ 88 % 2 ^ 8 :=
  extractLsb'_toNat_eq w 88 8

theorem fieldsOf_shiftAmount_toNat (w : Word) :
    (fieldsOf w).shiftAmount.toNat = w.toNat / 2 ^ 80 % 2 ^ 8 :=
  extractLsb'_toNat_eq w 80 8

theorem fieldsOf_reserved_toNat (w : Word) : (fieldsOf w).reserved.toNat = w.toNat / 2 ^ 64 % 2 ^ 16 :=
  extractLsb'_toNat_eq w 64 16

theorem fieldsOf_immediate_toNat (w : Word) : (fieldsOf w).immediate.toNat = w.toNat % 2 ^ 64 := by
  rw [← Nat.div_one w.toNat]
  exact extractLsb'_toNat_eq w 0 64

/-- Records of fields are equal when their fields are equal as numbers. -/
theorem fields_eq_of_toNat_eq {f g : Fields} (opcode : f.opcode.toNat = g.opcode.toNat)
    (operandA : f.operandA.toNat = g.operandA.toNat) (operandB : f.operandB.toNat = g.operandB.toNat)
    (target : f.target.toNat = g.target.toNat) (shiftAmount : f.shiftAmount.toNat = g.shiftAmount.toNat)
    (reserved : f.reserved.toNat = g.reserved.toNat) (immediate : f.immediate.toNat = g.immediate.toNat) :
    f = g := by
  cases f
  cases g
  simp only [Fields.mk.injEq]
  exact ⟨BitVec.eq_of_toNat_eq opcode, BitVec.eq_of_toNat_eq operandA, BitVec.eq_of_toNat_eq operandB,
    BitVec.eq_of_toNat_eq target, BitVec.eq_of_toNat_eq shiftAmount, BitVec.eq_of_toNat_eq reserved,
    BitVec.eq_of_toNat_eq immediate⟩

/-- A field placed above a word that stays below it adds its multiple of `2 ^ k`: the `|||` of R110 has no
carry to lose. -/
theorem placeField_toNat {n m : Nat} {rest : Word} (v : BitVec n) (k : Nat) (hk : n + k ≤ 128)
    (hrest : rest.toNat = m) (hm : m < 2 ^ k) :
    (v.zeroExtend 128 <<< k ||| rest).toNat = v.toNat * 2 ^ k + m := by
  have hfits : v.toNat * 2 ^ k < 2 ^ 128 :=
    calc v.toNat * 2 ^ k < 2 ^ n * 2 ^ k := Nat.mul_lt_mul_of_pos_right v.isLt (by positivity)
      _ = 2 ^ (n + k) := (pow_add 2 n k).symm
      _ ≤ 2 ^ 128 := Nat.pow_le_pow_right (by norm_num) hk
  have hv : v.toNat < 2 ^ 128 := lt_of_le_of_lt (Nat.le_mul_of_pos_right _ (by positivity)) hfits
  rw [BitVec.toNat_or, BitVec.toNat_shiftLeft, BitVec.toNat_setWidth, Nat.mod_eq_of_lt hv,
    Nat.shiftLeft_eq, Nat.mod_eq_of_lt hfits, ← Nat.shiftLeft_eq, hrest, Nat.shiftLeft_add_eq_or_of_lt hm]

/-- `Encode` as a number: every field at its place (R101, R110). -/
theorem encodeFields_toNat (f : Fields) : (encodeFields f).toNat =
    f.opcode.toNat * 2 ^ 112 + f.operandA.toNat * 2 ^ 104 + f.operandB.toNat * 2 ^ 96 +
      f.target.toNat * 2 ^ 88 + f.shiftAmount.toNat * 2 ^ 80 + f.reserved.toNat * 2 ^ 64 +
      f.immediate.toNat := by
  have h0 : (f.immediate.zeroExtend 128).toNat = f.immediate.toNat :=
    BitVec.toNat_setWidth_of_le (by norm_num)
  have h64 := placeField_toNat f.reserved 64 (by norm_num) h0 (by omega)
  have h80 := placeField_toNat f.shiftAmount 80 (by norm_num) h64 (by omega)
  have h88 := placeField_toNat f.target 88 (by norm_num) h80 (by omega)
  have h96 := placeField_toNat f.operandB 96 (by norm_num) h88 (by omega)
  have h104 := placeField_toNat f.operandA 104 (by norm_num) h96 (by omega)
  have h112 := placeField_toNat f.opcode 112 (by norm_num) h104 (by omega)
  simp only [encodeFields, BitVec.or_assoc, h112, Nat.add_assoc]

/-! ### Field extraction and `Encode` are inverse (R102, R110) -/

/-- Field extraction after `Encode`: dividing the sum by a field's place drops the fields below it, and the
mask drops those above it. -/
theorem fieldsOf_encodeFields (f : Fields) : fieldsOf (encodeFields f) = f := by
  have hw := encodeFields_toNat f
  refine fields_eq_of_toNat_eq ?_ ?_ ?_ ?_ ?_ ?_ ?_
  · rw [fieldsOf_opcode_toNat]; omega
  · rw [fieldsOf_operandA_toNat]; omega
  · rw [fieldsOf_operandB_toNat]; omega
  · rw [fieldsOf_target_toNat]; omega
  · rw [fieldsOf_shiftAmount_toNat]; omega
  · rw [fieldsOf_reserved_toNat]; omega
  · rw [fieldsOf_immediate_toNat]; omega

/-- `Encode` after field extraction: the seven fields together are all of the word. -/
theorem encodeFields_fieldsOf (w : Word) : encodeFields (fieldsOf w) = w := by
  apply BitVec.eq_of_toNat_eq
  rw [encodeFields_toNat, fieldsOf_opcode_toNat, fieldsOf_operandA_toNat, fieldsOf_operandB_toNat,
    fieldsOf_target_toNat, fieldsOf_shiftAmount_toNat, fieldsOf_reserved_toNat, fieldsOf_immediate_toNat]
  omega

/-! ### What `decode` answers (R104, R105) -/

/-- `decode` accepts a word as exactly the well-formed instruction that keeps the word's fields. -/
theorem decode_eq_ok {w : Word} {i : Instr} :
    decode w = .ok i ↔ i.opcode = (fieldsOf w).opcode ∧ i.fields = fieldsOf w := by
  constructor
  · intro h
    dsimp only [decode] at h
    split_ifs at h with hop hop hop hop hop <;> cases h <;> exact ⟨hop.symm, rfl⟩
  · rintro ⟨hop, hf⟩
    cases i <;> obtain rfl : _ = fieldsOf w := hf <;> simp [decode, ← hop, Instr.opcode]

/-- `decode` rejects a word exactly for an opcode of no variant, and gives that opcode raw (R105, R106). -/
theorem decode_eq_error {w : Word} {e : DecodeError} :
    decode w = .error e ↔
      w.extractLsb' 112 16 ∉ [(0x0000 : BitVec 16), 0xF010, 0xF011, 0xF013, 0xF020] ∧
        e = .invalidOpCode (w.extractLsb' 112 16) := by
  change _ ↔ (fieldsOf w).opcode ∉ _ ∧ e = .invalidOpCode (fieldsOf w).opcode
  simp only [List.mem_cons, List.not_mem_nil, or_false, not_or]
  constructor
  · intro h
    dsimp only [decode] at h
    split_ifs at h with hnull hsetLo hsetHi hload hstore
    cases h
    exact ⟨⟨hnull, hsetLo, hsetHi, hload, hstore⟩, rfl⟩
  · rintro ⟨⟨hnull, hsetLo, hsetHi, hload, hstore⟩, rfl⟩
    dsimp only [decode]
    rw [if_neg hnull, if_neg hsetLo, if_neg hsetHi, if_neg hload, if_neg hstore]

/-- `Encode` gives back the word that was decoded (R110). -/
theorem encode_of_decode {w : Word} {i : Instr} (h : decode w = .ok i) : encode i = w := by
  unfold encode
  rw [(decode_eq_ok.1 h).2, encodeFields_fieldsOf]

/-! ### Mask and match (R104) -/

/-- A row's mask keeps the opcode's bits in place and clears every other bit. -/
theorem and_opcodeMask (w : Word) :
    w &&& (0xFFFF <<< 112) = (w.extractLsb' 112 16).zeroExtend 128 <<< 112 := by
  have hmask : (0xFFFF <<< 112 : Word) = (BitVec.allOnes 16).zeroExtend 128 <<< 112 := by decide
  apply BitVec.eq_of_getLsbD_eq
  intro i hi
  simp only [hmask, BitVec.getLsbD_and, BitVec.getLsbD_shiftLeft, BitVec.getLsbD_setWidth,
    BitVec.getLsbD_allOnes, BitVec.getLsbD_extractLsb']
  by_cases hlow : i < 112
  · simp [hlow]
  · have hkept : i - 112 < 16 := by omega
    have hplace : 112 + (i - 112) = i := by omega
    simp [hi, hlow, hkept, hplace, Bool.and_comm]

/-- A field placed at the opcode's bits determines the field. -/
theorem placedOpcode_inj {op op' : BitVec 16}
    (h : op.zeroExtend 128 <<< 112 = (op'.zeroExtend 128 <<< 112 : Word)) : op = op' := by
  have hplace (v : BitVec 16) : (v.zeroExtend 128 <<< 112 : Word).toNat = v.toNat * 2 ^ 112 := by
    simpa using placeField_toNat (rest := 0#128) v 112 (by norm_num) rfl (by norm_num)
  have hnat := congrArg BitVec.toNat h
  rw [hplace, hplace] at hnat
  exact BitVec.eq_of_toNat_eq (by omega)

/-- An opcode field equals `op` exactly when the masked word is `op` in the opcode's place. -/
theorem opcode_eq_iff_mask (w : Word) (op : BitVec 16) :
    w.extractLsb' 112 16 = op ↔ w &&& (0xFFFF <<< 112) = op.zeroExtend 128 <<< 112 := by
  rw [and_opcodeMask]
  exact ⟨fun h => by rw [h], placedOpcode_inj⟩

/-- A variant is exactly the words its row's mask and match select: `variant` is the constructor, `op` its
opcode and `row` the match. -/
theorem exists_decode_eq_iff_mask (w : Word) {variant : Fields → Instr} (op : BitVec 16) {row : Word}
    (hop : ∀ f, (variant f).opcode = op) (hfields : ∀ f, (variant f).fields = f)
    (hrow : row = op.zeroExtend 128 <<< 112) :
    (∃ f, decode w = .ok (variant f)) ↔ w &&& (0xFFFF <<< 112) = row := by
  rw [hrow, ← opcode_eq_iff_mask]
  constructor
  · rintro ⟨f, h⟩
    exact (decode_eq_ok.1 h).1.symm.trans (hop f)
  · intro h
    exact ⟨fieldsOf w, decode_eq_ok.2 ⟨(hop _).trans h.symm, hfields _⟩⟩

/-- A word is rejected exactly for an opcode of no variant. -/
theorem exists_decode_eq_error (w : Word) :
    (∃ e, decode w = .error e) ↔
      w.extractLsb' 112 16 ∉ [(0x0000 : BitVec 16), 0xF010, 0xF011, 0xF013, 0xF020] := by
  simp only [decode_eq_error, exists_and_left, exists_eq, and_true]

/-! ### The obligations -/

/-- Settles O2: `Encode` is a sum of places, the two inverses, and `decode` keeps the word's fields. -/
theorem encodeDecodeRoundTrip : Obligations.EncodeDecodeRoundTrip :=
  ⟨encodeFields_toNat, fieldsOf_encodeFields, encodeFields_fieldsOf,
    fun _ _ h => ⟨(decode_eq_ok.1 h).2, encode_of_decode h⟩⟩

/-- Settles O3: each opcode is one case of `decode_eq_ok`, and the others are `decode_eq_error`. -/
theorem decodeIsTotalByOpcode : Obligations.DecodeIsTotalByOpcode := fun _ =>
  ⟨fun h => decode_eq_ok.2 ⟨h.symm, rfl⟩, fun h => decode_eq_ok.2 ⟨h.symm, rfl⟩,
    fun h => decode_eq_ok.2 ⟨h.symm, rfl⟩, fun h => decode_eq_ok.2 ⟨h.symm, rfl⟩,
    fun h => decode_eq_ok.2 ⟨h.symm, rfl⟩, fun h => decode_eq_error.2 ⟨h, rfl⟩⟩

/-- Settles O4: one row each of `exists_decode_eq_iff_mask`, and `exists_decode_eq_error` for the rest. -/
theorem decodeFollowsMaskAndMatch : Obligations.DecodeFollowsMaskAndMatch := fun w =>
  ⟨exists_decode_eq_iff_mask w Config.opNull (fun _ => rfl) (fun _ => rfl) (by decide),
    exists_decode_eq_iff_mask w Config.opSetLo (fun _ => rfl) (fun _ => rfl) (by decide),
    exists_decode_eq_iff_mask w Config.opSetHi (fun _ => rfl) (fun _ => rfl) (by decide),
    exists_decode_eq_iff_mask w Config.opLoad (fun _ => rfl) (fun _ => rfl) (by decide),
    exists_decode_eq_iff_mask w Config.opStore (fun _ => rfl) (fun _ => rfl) (by decide),
    exists_decode_eq_error w⟩

/-- Settles O5: each field as a number, and the round trip over every record of fields. -/
theorem fieldsAreIsolated : Obligations.FieldsAreIsolated :=
  ⟨fun w => ⟨fieldsOf_opcode_toNat w, fieldsOf_operandA_toNat w, fieldsOf_operandB_toNat w,
      fieldsOf_target_toNat w, fieldsOf_shiftAmount_toNat w, fieldsOf_reserved_toNat w,
      fieldsOf_immediate_toNat w⟩,
    fieldsOf_encodeFields⟩

end Sys2Proof

/-! PROOFS. The Null instruction (41_null.md R150): its arm, its word and its whole step (O18). -/

namespace Sys2Proof.Machine

/-- `Execute(Null(f))` completes in every state, whatever the fields hold (R150). -/
@[simp] theorem exec_null (f : Fields) (s : State) : exec (.null f) s = .next s := rfl

/-- Every word with opcode 0 decodes to `Null`; its other 112 bits are ignored (R109, R150). -/
theorem decode_null {w : Word} (h : w.extractLsb' 112 16 = 0) : decode w = .ok (.null (fieldsOf w)) :=
  decode_eq_ok.2 ⟨h.symm, rfl⟩

/-- Settles O18: the step is `stepWithCost_eq_next` with the arm and the word of `Null`, which leave the
state the fetch latched. -/
theorem nullChangesNothing : Obligations.NullChangesNothing := by
  refine ⟨exec_null, fun w => decode_null, fun s w hrun hpc hread hop => ?_⟩
  exact stepWithCost_eq_next.2
    ⟨hrun, hpc, w, .null (fieldsOf w), hread, decode_null hop, exec_null _ (latch s w), rfl⟩

end Sys2Proof.Machine

/-! PROOFS. The invalid opcode (60_exceptions.md R202): no operation below the decoder raises `InvalidOpCode`,
so a step raises it exactly when `decode` rejects the word it fetched (O36). -/

namespace Sys2Proof.Machine

/-! ### What never raises `InvalidOpCode` (R202) -/

section
variable {op : BitVec 16} {s u : State}

/-- No memory error becomes an invalid opcode (R201). -/
theorem memFault_ne_invalidOpCode {e : MemError} {t : State} : memFault e t ≠ .invalidOpCode op u := by
  cases e <;> nofun

theorem memRead_ne_invalidOpCode {a : Address} {n : Nat} : memRead s a n ≠ .fault (.invalidOpCode op u) := by
  intro h
  obtain ⟨_, _, hf⟩ := memRead_eq_fault.1 h
  exact memFault_ne_invalidOpCode hf.symm

theorem memWrite_ne_invalidOpCode {a : Address} {n : Nat} {v : BitVec (8 * n)} :
    memWrite s a n v ≠ .fault (.invalidOpCode op u) := by
  intro h
  obtain ⟨_, _, hf⟩ := memWrite_eq_fault.1 h
  exact memFault_ne_invalidOpCode hf.symm

theorem writable_ne_invalidOpCode {i : RegIndex} : writable s i ≠ .fault (.invalidOpCode op u) := by
  intro h
  obtain ⟨_, ⟨_, hf⟩ | ⟨_, hf⟩⟩ := writable_eq_fault.1 h <;> cases hf

theorem readReg_ne_invalidOpCode {i : RegIndex} : readReg s i ≠ .fault (.invalidOpCode op u) := by
  intro h
  cases (readReg_eq_fault h).2

theorem fetch_ne_invalidOpCode : fetch s ≠ .fault (.invalidOpCode op u) := by
  intro h
  obtain ⟨_, hf⟩ | ⟨_, _, _, hf⟩ := fetch_eq_fault.1 h
  · cases hf
  · exact memFault_ne_invalidOpCode hf.symm

/-- A decoded instruction never raises the decoder's fault (R133). -/
theorem exec_ne_invalidOpCode {i : Instr} : exec i s ≠ .fault (.invalidOpCode op u) := by
  intro h
  cases i with
  | null g => cases h
  | setLo g =>
    obtain h | ⟨_, _, h⟩ := andThen_eq_fault.1 h
    · exact writable_ne_invalidOpCode h
    · cases h
  | setHi g =>
    obtain h | ⟨_, _, h⟩ := andThen_eq_fault.1 h
    · exact writable_ne_invalidOpCode h
    · cases h
  | load g =>
    obtain h | ⟨_, _, h⟩ := andThen_eq_fault.1 h
    · exact writable_ne_invalidOpCode h
    · obtain h | ⟨_, _, h⟩ := andThen_eq_fault.1 h
      · exact memRead_ne_invalidOpCode h
      · cases h
  | store g =>
    obtain h | ⟨_, _, h⟩ := andThen_eq_fault.1 h
    · exact readReg_ne_invalidOpCode h
    · exact memWrite_ne_invalidOpCode h

/-- A step raises `InvalidOpCode` exactly when the fetch latched a word that `decode` rejects. -/
theorem step_eq_invalidOpCode :
    step s = .fault (.invalidOpCode op u) ↔
      s.runState = .running ∧ ∃ w : Word, fetch s = .next (latch s w) ∧
        decode w = .error (.invalidOpCode op) ∧ u = latch s w := by
  rw [step_eq_fault, stepWithCost_eq_fault]
  refine and_congr_right fun _ => ⟨?_, ?_⟩
  · rintro (hf | ⟨hpc, w, hread, ⟨_, hd, hf⟩ | ⟨_, _, hx⟩⟩)
    · exact absurd hf fetch_ne_invalidOpCode
    · cases hf
      exact ⟨w, fetch_eq_next.2 ⟨hpc, w, hread, rfl⟩, hd, rfl⟩
    · exact absurd hx exec_ne_invalidOpCode
  · rintro ⟨w, hfetch, hd, rfl⟩
    obtain ⟨hpc, w', hread, hw⟩ := fetch_eq_next.1 hfetch
    obtain rfl : w = w' := congrArg State.ir hw
    exact Or.inr ⟨hpc, w, hread, Or.inl ⟨op, hd, rfl⟩⟩

end

/-- Settles O36: `step_eq_invalidOpCode`, with the rejected words of `decode_eq_error` as opcodes. -/
theorem invalidOpcodeFaults : Obligations.InvalidOpcodeFaults := by
  intro s op u
  rw [step_eq_invalidOpCode]
  constructor
  · rintro ⟨hrun, w, hfetch, hd, rfl⟩
    obtain ⟨hop, he⟩ := decode_eq_error.1 hd
    cases he
    exact ⟨w, hfetch, rfl, hrun, rfl, hop⟩
  · rintro ⟨w, hfetch, rfl, hrun, rfl, hop⟩
    exact ⟨hrun, w, hfetch, decode_eq_error.2 ⟨hop, rfl⟩, rfl⟩

end Sys2Proof.Machine

/-! PROOFS. Encoding, continued (30_encoding.md R105, R110): decoding what was encoded (O1), and the words of
the test vectors (O6). -/

namespace Sys2Proof

/-- Settles O1: the word keeps the fields (`fieldsOf_encodeFields`), and the opcode among them is the
variant's. -/
theorem decodeEncodeRoundTrip : Obligations.DecodeEncodeRoundTrip := by
  intro i hwf
  have hop : i.fields.opcode = i.opcode := of_decide_eq_true hwf
  have hfields : fieldsOf (encode i) = i.fields := fieldsOf_encodeFields i.fields
  exact decode_eq_ok.2 ⟨by rw [hfields, hop], hfields.symm⟩

/-- Settles O6: six closed words, evaluated. -/
theorem sampleWordsDecode : Obligations.SampleWordsDecode := by
  refine ⟨?_, ?_, ?_, ?_, ?_, ?_⟩ <;> decide

end Sys2Proof

/-! PROOFS. The frame of a step (10_state.md R38; 40_step_engine.md R130, R135), and the invariant of the
states the host can reach: a step (O40, O43), every call (O42, O59), every run of calls (O44). -/

namespace Sys2Proof.Machine

/-! ### What one instruction and one step leave alone (R38) -/

/-- What `t` keeps of `s` when an instruction, completed or faulted, led from `s` to `t`: everything outside
the general registers and RAM, and RAM's size and canonical form. -/
structure MeaningFrame (s t : State) : Prop where
  others : { t with g := s.g, mem := s.mem } = s
  rom : t.mem.rom = s.mem.rom
  ramSize : t.mem.ram.size = s.mem.ram.size
  wf : s.mem.wf → t.mem.wf

/-- What `t` keeps of `s` when a step, completed or faulted, led from `s` to `t`: one instruction's frame,
from `s` itself where the fetch faulted, else from what the fetch latched. -/
def StepFrame (s t : State) : Prop :=
  ∃ u, (u = s ∨ s.pc.toNat + 16 ≤ Config.maxAddress ∧ ∃ w, u = latch s w) ∧ MeaningFrame u t

section
variable {s t : State}

theorem MeaningFrame.refl (s : State) : MeaningFrame s s := ⟨rfl, rfl, rfl, id⟩

theorem meaningFrame_setG (s : State) (k : Fin 26) (v : Word) : MeaningFrame s (setG s k v) :=
  ⟨rfl, rfl, rfl, id⟩

theorem meaningFrame_write (s : State) (a : Address) (n : Nat) (v : BitVec (8 * n)) :
    MeaningFrame s (setMem s (s.mem.write a n v).1) := by
  obtain ⟨_, _, _, hrom, hsize, hwf, _⟩ := write_spec s.mem a n v
  exact ⟨rfl, hrom, hsize, hwf⟩

theorem exec_leaves_meaningFrame (i : Instr) (s : State) : Leaves (MeaningFrame s) id (exec i s) := by
  refine leaves_of_cases (fun t h => ?_) (fun f h => ?_)
  · obtain rfl | ⟨k, v, rfl⟩ | ⟨_, _, _, _, rfl⟩ := exec_eq_next h
    · exact .refl _
    · exact meaningFrame_setG s k v
    · exact meaningFrame_write ..
  · obtain h | ⟨_, _, _, _, _, rfl⟩ := exec_eq_fault h
    · rw [h]; exact .refl s
    · rw [resume_memFault]; exact meaningFrame_write ..

/-- A fetch that faults leaves nothing changed (R135). -/
theorem resume_of_fetch_fault {f : Fault} (h : fetch s = .fault f) : resume f = s := by
  obtain ⟨_, rfl⟩ | ⟨_, e, _, rfl⟩ := fetch_eq_fault.1 h
  · rfl
  · exact resume_memFault e s

theorem stepWithCost_leaves_stepFrame (s : State) : Leaves (StepFrame s) Prod.fst (stepWithCost s) := by
  refine leaves_of_cases (fun ⟨t, c⟩ h => ?_) (fun f h => ?_)
  · obtain ⟨_, hpc, w, i, _, _, hx, _⟩ := stepWithCost_eq_next.1 h
    have hframe := exec_leaves_meaningFrame i (latch s w)
    rw [hx] at hframe
    exact ⟨latch s w, .inr ⟨hpc, w, rfl⟩, hframe⟩
  · obtain ⟨_, hf | ⟨hpc, w, _, ⟨_, _, rfl⟩ | ⟨i, _, hx⟩⟩⟩ := stepWithCost_eq_fault.1 h
    · rw [resume_of_fetch_fault hf]; exact ⟨s, .inl rfl, .refl s⟩
    · exact ⟨latch s w, .inr ⟨hpc, w, rfl⟩, .refl _⟩
    · have hframe := exec_leaves_meaningFrame i (latch s w)
      rw [hx] at hframe
      exact ⟨latch s w, .inr ⟨hpc, w, rfl⟩, hframe⟩

/-- What holds of all that the step with its cost leaves holds of all that a step leaves (R135). -/
theorem StepLeaves.of_leaves {P : State → Prop} (h : StepLeaves s t)
    (hP : Leaves P Prod.fst (stepWithCost s)) : P t := by
  have hstep : Leaves P id (step s) := hP.dropValue
  obtain h | ⟨f, h, rfl⟩ := h <;> rw [h] at hstep <;> exact hstep

theorem StepLeaves.stepFrame (h : StepLeaves s t) : StepFrame s t :=
  h.of_leaves (stepWithCost_leaves_stepFrame s)

end

/-- Settles O40: `MeaningFrame` names every one of these pieces, and a fetch writes only `IR` and `PC`. -/
theorem stepNeverTouches : Obligations.StepNeverTouches := by
  intro s t h
  obtain ⟨u, hu, hothers, hrom, hsize, _⟩ := h.stepFrame
  have hsp := congrArg State.sp hothers
  have hfp := congrArg State.fp hothers
  have hra := congrArg State.ra hothers
  have hflags := congrArg State.flags hothers
  have hrun := congrArg State.runState hothers
  have hpacer := congrArg State.pacer hothers
  have hcfg := congrArg State.cfg hothers
  obtain rfl | ⟨_, w, rfl⟩ := hu <;> exact ⟨hsp, hfp, hra, hflags, hrom, hsize, hrun, hpacer, hcfg⟩

/-! ### The sums of `PC` and `SP` that do not wrap (R26, R28) -/

theorem pc_add_toNat {pc : Address} (h : pc.toNat + 16 ≤ Config.maxAddress) :
    (pc + 16).toNat = pc.toNat + 16 := by
  rw [BitVec.toNat_add]
  exact Nat.mod_eq_of_lt (Nat.lt_succ_of_le h)

theorem sp_add_one_toNat {sp : Half} (h : sp.toNat % 256 ≠ 0xFF) : (sp + 1).toNat = sp.toNat + 1 := by
  rw [BitVec.toNat_add, show (1 : Half).toNat = 1 from rfl]
  omega

theorem sp_sub_one_toNat {sp : Half} (h : sp.toNat % 256 ≠ 0) : (sp - 1).toNat = sp.toNat - 1 := by
  rw [BitVec.toNat_sub, show (1 : Half).toNat = 1 from rfl]
  omega

/-! ### The invariant under what a step and a call are made of -/

namespace Inv
variable {s t : State}

theorem setMem (h : Inv s) {m : Memory} (hm : m.wf) : Inv (setMem s m) := { h with memory := hm }

theorem setSp (h : Inv s) {v : Half} (hv : v.toNat ≤ 0xFF) : Inv (setSp s v) := { h with sp := hv }

theorem setPacer (h : Inv s) {p : Pacer} (hp : 0 < p.clockHz) : Inv (setPacer s p) := { h with clock := hp }

/-- `PC` moves up by 16 without wrapping, so it stays above ENTRY and keeps its alignment (R140, R251). -/
theorem latch (h : Inv s) (hpc : s.pc.toNat + 16 ≤ Config.maxAddress) (w : Word) : Inv (latch s w) := by
  have hfrom := h.pcFrom
  have haligned := h.pcAligned
  refine { h with pcFrom := ?_, pcAligned := ?_ } <;> simp only [latch_pc, latch_cfg, pc_add_toNat hpc] <;>
    omega

theorem of_meaningFrame (h : Inv s) (hframe : MeaningFrame s t) : Inv t := by
  obtain ⟨hothers, _, _, hwf⟩ := hframe
  have hkept : Inv { t with g := s.g, mem := s.mem } := by rw [hothers]; exact h
  exact { hkept with memory := hwf h.memory }

theorem of_stepFrame (h : Inv s) (hframe : StepFrame s t) : Inv t := by
  obtain ⟨_, rfl | ⟨hpc, w, rfl⟩, hmeaning⟩ := hframe
  · exact h.of_meaningFrame hmeaning
  · exact (h.latch hpc w).of_meaningFrame hmeaning

end Inv

/-- Settles O43: a step changes only what `StepFrame` lets it, and `PC` only by 16. -/
theorem invariantKeptByEveryStep : Obligations.InvariantKeptByEveryStep :=
  fun _ _ h hstep => h.of_stepFrame hstep.stepFrame

theorem Leaves.mono {α : Type} {P Q : State → Prop} {st : α → State} {r : Result α} (h : Leaves P st r)
    (hPQ : ∀ t, P t → Q t) : Leaves Q st r := by
  cases r with
  | next a => exact hPQ _ h
  | fault f => exact hPQ _ h
  | refused q => trivial

/-- The overflow check of `Push` keeps `SP` below 256 (R183). -/
theorem push_leaves_inv {s : State} (h : Inv s) (b : Byte) : Leaves Inv id (push b s) := by
  have hsp := h.sp
  refine leaves_of_cases (fun t ht => ?_) (fun f hf => ?_)
  · obtain ⟨hlow, m, hm, rfl⟩ := push_eq_next.1 ht
    exact (h.setMem (writeByte_wf h.memory hm)).setSp (by rw [sp_add_one_toNat hlow]; omega)
  · obtain ⟨e, _, rfl⟩ | ⟨_, m, hm, rfl⟩ := push_eq_fault.1 hf
    · rw [resume_memFault]; exact h
    · exact h.setMem (writeByte_wf h.memory hm)

/-- The underflow check of `Pull` comes before its decrement, so `SP` does not wrap (R183). -/
theorem pull_leaves_inv {s : State} (h : Inv s) : Leaves Inv Prod.fst (pull s) := by
  have hsp := h.sp
  have hdecremented (hlow : s.sp.toNat % 256 ≠ 0) : Inv (setSp s (s.sp - 1)) :=
    h.setSp (by rw [sp_sub_one_toNat hlow]; omega)
  refine leaves_of_cases (fun ⟨t, b⟩ ht => ?_) (fun f hf => ?_)
  · obtain ⟨hlow, rfl, _⟩ := pull_eq_next.1 ht
    exact hdecremented hlow
  · obtain ⟨_, rfl⟩ | ⟨hlow, e, _, rfl⟩ := pull_eq_fault.1 hf
    · exact h
    · rw [resume_memFault]; exact hdecremented hlow

/-- A reset gives the invariant wherever the memory, the parameters and the frequency meet it (R240). -/
theorem inv_reset {s : State} (hmem : s.mem.wf) (hcfg : s.cfg.wf) (hclock : 0 < s.pacer.clockHz) :
    Inv (reset s) where
  memory := zero_wf hmem
  params := hcfg
  clock := hclock
  running := rfl
  flags := rfl
  fp := rfl
  ra := rfl
  sp := Nat.zero_le _
  pcFrom := le_rfl
  pcAligned := rfl

theorem invKept : KeptByHostPrimitives Inv where
  step s h := (stepWithCost_leaves_stepFrame s).mono fun _ => h.of_stepFrame
  push b _ h := push_leaves_inv h b
  pull _ h := pull_leaves_inv h
  reset _ h := inv_reset h.memory h.params h.clock
  pacer s p h hp := h.setPacer (hp.elim (fun e => by rw [e]; exact h.clock) id)

/-! ### Construction (R245) -/

theorem deviceOf_wf (base : Nat) (bs : List Byte) : (deviceOf base bs).wf base :=
  deviceFill_wf ⟨.nil, by simp⟩ le_rfl le_rfl

theorem construct_eq_next {image : List Byte} {ramSize cap : Nat} {hz : Rat} {cfg : Params} {s : State} :
    construct image ramSize hz cap cfg = .next s ↔ 0 < hz ∧ s = powerOn image ramSize hz cap cfg := by
  unfold construct
  split_ifs with h <;> simp [h, eq_comm]

theorem inv_reset_powerOn (image : List Byte) (ramSize : Nat) {hz : Rat} (cap : Nat) {cfg : Params}
    (hcfg : cfg.wf) (hpos : 0 < hz) : Inv (reset (powerOn image ramSize hz cap cfg)) :=
  inv_reset ⟨deviceOf_wf _ image, deviceOf_wf _ _⟩ hcfg hpos

/-- Settles O59: construction is `inv_reset_powerOn`, and a call is made of what `invKept` covers. -/
theorem invariantKeptByEveryHostCall : Obligations.InvariantKeptByEveryHostCall :=
  ⟨fun image ramSize _ cap _ hcfg hpos => ⟨_, construct_eq_next.2 ⟨hpos, rfl⟩,
      inv_reset_powerOn image ramSize cap hcfg hpos⟩,
    fun c _ h => invKept.kept_hostCall h c⟩

/-- Settles O44: the invariant holds after construction and reset, and every run of calls keeps it. -/
theorem invariantOfReachableStates : Obligations.InvariantOfReachableStates := by
  rintro _ ⟨image, ramSize, hz, cap, cfg, s₀, calls, hcfg, hs₀, rfl⟩
  obtain ⟨hpos, rfl⟩ := construct_eq_next.1 hs₀
  exact invKept.kept_hostCalls (inv_reset_powerOn image ramSize cap hcfg hpos) calls

/-- Settles O60: construction is `powerOn`, field by field. -/
theorem constructionLeaves : Obligations.ConstructionLeaves := by
  intro image ramSize hz cap cfg hpos
  refine ⟨_, construct_eq_next.2 ⟨hpos, rfl⟩, rfl, deviceOf_size _ image, ?_, rfl, rfl, rfl⟩
  exact (deviceOf_size _ _).trans (by simp)

/-! ### Reset (R240, R242, R243) -/

/-- A cell list that names nothing reads as 0 everywhere (R39, R74). -/
theorem ramByte_zero (m : Memory) (o : Nat) : ramByte m.zero o = 0 := rfl

/-- Settles O46: `Reset()` writes each of these pieces. -/
theorem resetLeaves : Obligations.ResetLeaves := fun s =>
  ⟨reset_pc s, fun k => by simp, reset_sp s, reset_fp s, reset_ra s, reset_flags s, reset_ir s,
    ramByte_zero s.mem, rfl, reset_runState s⟩

/-- Settles O47: `Reset()` writes none of these pieces. -/
theorem resetKeepsTheParameters : Obligations.ResetKeepsTheParameters := fun s =>
  ⟨zero_rom s.mem, rfl, reset_cfg s, rfl, rfl, rfl, rfl⟩

/-- `zero()` forgets what RAM held (R74). -/
theorem zero_eq_zero {m n : Memory} (hrom : m.rom = n.rom) (hsize : m.ram.size = n.ram.size) :
    m.zero = n.zero := by
  simp [Memory.zero, hrom, hsize]

/-- States that agree on ROM, the size of RAM, the parameters and what the pacer keeps have one reset. -/
theorem reset_eq_reset {s t : State} (hrom : s.mem.rom = t.mem.rom)
    (hsize : s.mem.ram.size = t.mem.ram.size) (hcfg : s.cfg = t.cfg)
    (hpacer : { s.pacer with owed := 0 } = { t.pacer with owed := 0 }) : reset s = reset t := by
  unfold reset
  rw [zero_eq_zero hrom hsize, hcfg, hpacer]

/-- Settles O48: a reset keeps what `reset_eq_reset` asks for, so the second equals the first. -/
theorem resetForgetsTheRun : Obligations.ResetForgetsTheRun :=
  ⟨fun _ _ => reset_eq_reset, fun s => reset_eq_reset (s := reset s) (t := s) rfl rfl rfl rfl⟩

/-- Settles O49: the fixed state is its own reset, and `s` has the same one. -/
theorem resetStateIsReset : Obligations.ResetStateIsReset := by
  intro s hcfg hrom hsize hpacer
  calc reset s = reset State.reset := reset_eq_reset hrom hsize hcfg hpacer
    _ = State.reset := rfl

/-- Settles O42: the fixed state is its own reset, from an empty memory and legal parameters. -/
theorem invariantAtReset : Obligations.InvariantAtReset :=
  have hmem : State.reset.mem.wf := ⟨⟨.nil, by simp [State.reset]⟩, .nil, by simp [State.reset]⟩
  inv_reset (s := State.reset) hmem (by decide) (by decide)

end Sys2Proof.Machine

/-! PROOFS. Memory (20_memory.md R60 to R77; 30_encoding.md R103): one byte by segment (O8, O9), many bytes
(O10 to O13), `zero()` (O14), and where an instruction word's fields lie (O7). -/

namespace Sys2Proof.Machine

/-! ### The segment of an address (R61, R62) -/

section
variable {a : Address}

theorem segment_eq_null (h : a.toNat ≤ 0xF) : segment a = .null := if_pos h

theorem segment_eq_system (h : 0x10 ≤ a.toNat ∧ a.toNat ≤ 0xFFFFF) : segment a = .system := by
  unfold segment
  rw [if_neg (by have := bounds; omega), if_pos h.2]

theorem segment_eq_rom (h : 0x100000 ≤ a.toNat ∧ a.toNat ≤ 0x1FFFFFFFF) : segment a = .rom := by
  have := bounds
  unfold segment
  rw [if_neg (by omega), if_neg (by omega), if_pos h.2]

theorem segment_eq_hardwareIO (h : 0x200000000 ≤ a.toNat ∧ a.toNat ≤ 0x2FFFFFFFF) :
    segment a = .hardwareIO := by
  have := bounds
  unfold segment
  rw [if_neg (by omega), if_neg (by omega), if_neg (by omega), if_pos h.2]

theorem segment_eq_ram (h : 0x300000000 ≤ a.toNat) : segment a = .ram := by
  have := bounds
  unfold segment
  rw [if_neg (by omega), if_neg (by omega), if_neg (by omega), if_neg (by omega)]

end

/-! ### One byte, by the segment of its address (R63, R64) -/

section
variable {m : Memory} {a : Address} {b : Byte}

theorem readByte_of_null (h : segment a = .null) : m.readByte a = .error (.nullAddress a) := by
  unfold Memory.readByte; rw [h]

theorem readByte_of_system (h : segment a = .system) : m.readByte a = .error (.reservedAddress a) := by
  unfold Memory.readByte; rw [h]

theorem readByte_of_rom (h : segment a = .rom) :
    m.readByte a = if a.toNat < Config.romBase + m.rom.size then .ok (deviceRead m.rom a.toNat)
      else .error (.invalidAddress a) := by
  unfold Memory.readByte; rw [h]

theorem readByte_of_hardwareIO (h : segment a = .hardwareIO) :
    m.readByte a = .error (.reservedAddress a) := by
  unfold Memory.readByte; rw [h]

theorem readByte_of_ram (h : segment a = .ram) :
    m.readByte a = if a.toNat < Config.ramBase + m.ram.size then .ok (deviceRead m.ram a.toNat)
      else .error (.invalidAddress a) := by
  unfold Memory.readByte; rw [h]

theorem writeByte_of_null (h : segment a = .null) : m.writeByte a b = .error (.nullAddress a) := by
  unfold Memory.writeByte; rw [h]

theorem writeByte_of_system (h : segment a = .system) :
    m.writeByte a b = .error (.reservedAddress a) := by
  unfold Memory.writeByte; rw [h]

theorem writeByte_of_rom (h : segment a = .rom) :
    m.writeByte a b = .error (.writeToReadOnlyAddress a) := by
  unfold Memory.writeByte; rw [h]

theorem writeByte_of_hardwareIO (h : segment a = .hardwareIO) :
    m.writeByte a b = .error (.reservedAddress a) := by
  unfold Memory.writeByte; rw [h]

theorem writeByte_of_ram (h : segment a = .ram) :
    m.writeByte a b = if a.toNat < Config.ramBase + m.ram.size then
      .ok { m with ram := deviceWrite m.ram a.toNat b } else .error (.invalidAddress a) := by
  unfold Memory.writeByte; rw [h]

end

section
variable {s : State} {a : Address}

theorem readByte_of_error {e : MemError} (h : s.mem.readByte a = .error e) :
    readByte s a = .fault (memFault e s) := readByte_eq_fault.2 ⟨e, h, rfl⟩

theorem writeByte_of_error {b : Byte} {e : MemError} (h : s.mem.writeByte a b = .error e) :
    writeByte s a b = .fault (memFault e s) := writeByte_eq_fault.2 ⟨e, h, rfl⟩

end

/-- A read in a device's segment answers the device's byte, or faults beyond the device (R63). -/
theorem readByte_of_device {s : State} {a : Address} {base size o : Nat} {b : Byte}
    (hread : s.mem.readByte a = if a.toNat < base + size then .ok b else .error (.invalidAddress a))
    (ho : a.toNat = base + o) :
    readByte s a = if o < size then .next b else .fault (.invalidAddress a s) := by
  by_cases hin : o < size
  · rw [if_pos hin]
    rw [if_pos (by omega)] at hread
    exact readByte_eq_next.2 hread
  · rw [if_neg hin]
    rw [if_neg (by omega)] at hread
    exact readByte_of_error hread

/-- Settles O8: the byte read of each segment, its error made the core's fault. -/
theorem readByteBySegment : Obligations.ReadByteBySegment := by
  intro s a
  refine ⟨fun h => readByte_of_error (readByte_of_null (segment_eq_null h)),
    fun h => readByte_of_error (readByte_of_system (segment_eq_system h)), fun o ho hlast => ?_,
    fun h => readByte_of_error (readByte_of_hardwareIO (segment_eq_hardwareIO h)), fun o ho => ?_⟩
  · rw [show romByte s.mem o = deviceRead s.mem.rom a.toNat by rw [ho]; rfl]
    exact readByte_of_device (readByte_of_rom (segment_eq_rom (by omega))) ho
  · rw [show ramByte s.mem o = deviceRead s.mem.ram a.toNat by rw [ho]; rfl]
    exact readByte_of_device (readByte_of_ram (segment_eq_ram (by omega))) ho

/-- Settles O9: the byte write of each segment, and `deviceRead_deviceWrite` for what RAM then holds. -/
theorem writeByteBySegment : Obligations.WriteByteBySegment := by
  intro s a b
  refine ⟨fun h => writeByte_of_error (writeByte_of_null (segment_eq_null h)),
    fun h => writeByte_of_error (writeByte_of_system (segment_eq_system h)),
    fun h => writeByte_of_error (writeByte_of_rom (segment_eq_rom h)),
    fun h => writeByte_of_error (writeByte_of_hardwareIO (segment_eq_hardwareIO h)), fun o ho => ?_⟩
  have := bounds
  have hwrite := writeByte_of_ram (m := s.mem) (b := b) (segment_eq_ram (a := a) (by omega))
  refine ⟨fun hout => ?_, fun hin => ?_⟩
  · rw [if_neg (by omega)] at hwrite
    exact writeByte_of_error hwrite
  · rw [if_pos (by omega)] at hwrite
    refine ⟨_, writeByte_eq_next.2 ⟨_, hwrite, rfl⟩, rfl, rfl, fun p => ?_⟩
    simp only [ramByte, deviceRead_deviceWrite]
    congr 1
    exact propext (by omega)

/-! ### Many bytes (R67, R68, R70) -/

/-- `a + i` of R67, where it does not leave 64 bits. -/
theorem toNat_ofNat_add {a : Address} {i : Nat} (h : a.toNat + i ≤ Config.maxAddress) :
    (BitVec.ofNat 64 (a.toNat + i)).toNat = a.toNat + i := by
  rw [BitVec.toNat_ofNat]
  exact Nat.mod_eq_of_lt (Nat.lt_succ_of_le h)

theorem ofNat_add_eq (a : Address) (i : Nat) : BitVec.ofNat 64 (a.toNat + i) = a + BitVec.ofNat 64 i := by
  apply BitVec.eq_of_toNat_eq
  simp

section
variable {m : Memory} {a : Address} {n : Nat}

theorem read_eq_ok_iff_readBytes {v : BitVec (8 * n)} :
    m.read a n = .ok v ↔ m.readBytes a.toNat n = .ok (leBytes v n) := by
  unfold Memory.read
  cases h : m.readBytes a.toNat n with
  | error e => simp
  | ok bs =>
    obtain ⟨rfl, _⟩ := readBytes_eq_ok.1 h
    simp only [Except.ok.injEq]
    constructor
    · rintro rfl
      exact (leBytes_ofNat_leValue bs).symm
    · intro hbs
      rw [congrArg leValue hbs, ofNat_leValue_leBytes]

/-- A read completes exactly when every byte can be read, with the bytes as the value's (R67). -/
theorem read_eq_ok {v : BitVec (8 * n)} :
    m.read a n = .ok v ↔ ∀ i < n, a.toNat + i ≤ Config.maxAddress ∧
      m.readByte (BitVec.ofNat 64 (a.toNat + i)) = .ok (v.extractLsb' (8 * i) 8) := by
  rw [read_eq_ok_iff_readBytes, readBytes_eq_ok]
  simp [leBytes_getElem]

theorem readByte_of_read {v : BitVec (8 * n)} (h : m.read a n = .ok v) {i : Nat} (hi : i < n) :
    m.readByte (a + BitVec.ofNat 64 i) = .ok (v.extractLsb' (8 * i) 8) := by
  rw [← ofNat_add_eq]
  exact (read_eq_ok.1 h i hi).2

/-- The walk of R67 gets past the byte at `x`. -/
def ByteReads (m : Memory) (x : Nat) : Prop :=
  x ≤ Config.maxAddress ∧ ∃ b, m.readByte (BitVec.ofNat 64 x) = .ok b

/-- The walk of R67 ends at the byte at `x`, with this error. -/
def ByteFails (m : Memory) (x : Nat) (e : MemError) : Prop :=
  (Config.maxAddress < x ∧ e = .memoryOverflow) ∨
    (x ≤ Config.maxAddress ∧ m.readByte (BitVec.ofNat 64 x) = .error e)

theorem ByteFails.not_byteReads {x : Nat} {e : MemError} (h : ByteFails m x e) : ¬ ByteReads m x := by
  rintro ⟨hx, b, hb⟩
  obtain ⟨hover, _⟩ | ⟨_, he⟩ := h
  · omega
  · rw [hb] at he; cases he

theorem ByteFails.unique {x : Nat} {e e' : MemError} (h : ByteFails m x e) (h' : ByteFails m x e') :
    e = e' := by
  obtain ⟨hover, rfl⟩ | ⟨hx, he⟩ := h <;> obtain ⟨hover', rfl⟩ | ⟨hx', he'⟩ := h'
  · rfl
  · omega
  · omega
  · rw [he] at he'; cases he'; rfl

/-- A read fails exactly with the error of its first failing byte (R67, R76). -/
theorem read_eq_error {e : MemError} :
    m.read a n = .error e ↔
      ∃ k < n, (∀ i < k, ByteReads m (a.toNat + i)) ∧ ByteFails m (a.toNat + k) e := by
  have hfirst : ∀ e', m.read a n = .error e' →
      ∃ k < n, (∀ i < k, ByteReads m (a.toNat + i)) ∧ ByteFails m (a.toNat + k) e' := by
    intro e' h
    unfold Memory.read at h
    cases hbs : m.readBytes a.toNat n with
    | ok bs => rw [hbs] at h; cases h
    | error e'' => rw [hbs] at h; cases h; exact readBytes_eq_error hbs
  refine ⟨hfirst e, fun ⟨k, hk, hbefore, hfails⟩ => ?_⟩
  cases h : m.read a n with
  | ok v => exact absurd ⟨(read_eq_ok.1 h k hk).1, _, (read_eq_ok.1 h k hk).2⟩ hfails.not_byteReads
  | error e' =>
    obtain ⟨k', hk', hbefore', hfails'⟩ := hfirst e' h
    obtain hlt | rfl | hgt := lt_trichotomy k k'
    · exact absurd (hbefore' k hlt) hfails.not_byteReads
    · rw [hfails'.unique hfails]
    · exact absurd (hbefore k' hgt) hfails'.not_byteReads

/-- A write that completes has written all its bytes, each in RAM, and nothing else (R68). -/
theorem write_complete {v : BitVec (8 * n)} (h : (m.write a n v).2 = none) :
    (∀ i < n, a.toNat + i ≤ Config.maxAddress ∧ Config.ramBase ≤ a.toNat + i ∧
      a.toNat + i < Config.ramBase + m.ram.size) ∧
    ∀ x : Address, (m.write a n v).1.readByte x =
      if a.toNat ≤ x.toNat ∧ x.toNat < a.toNat + n then
        .ok (v.extractLsb' (8 * (x.toNat - a.toNat)) 8) else m.readByte x := by
  obtain ⟨k, _, hram, _, _, _, hread, ⟨_, rfl⟩ | ⟨_, _, hs⟩ | ⟨_, _, e, hs, _⟩⟩ := write_spec m a n v
  · exact ⟨hram, hread⟩
  · rw [h] at hs; cases hs
  · rw [h] at hs; cases hs

/-- What a write left reads back as its value (R70). -/
theorem read_write {v : BitVec (8 * n)} (h : (m.write a n v).2 = none) :
    (m.write a n v).1.read a n = .ok v := by
  obtain ⟨hram, hread⟩ := write_complete h
  refine read_eq_ok.2 fun i hi => ⟨(hram i hi).1, ?_⟩
  rw [hread, toNat_ofNat_add (hram i hi).1, if_pos (by omega), Nat.add_sub_cancel_left]

end

/-- Settles O10: `read_eq_ok` and `read_eq_error`. -/
theorem memReadByBytes : Obligations.MemReadByBytes := fun _ _ _ =>
  ⟨fun _ => read_eq_ok, fun _ => read_eq_error⟩

/-- Settles O11: `write_complete`, and the prefix that `write_spec` gives for a write that stops. -/
theorem memWriteByBytes : Obligations.MemWriteByBytes := by
  intro s a n v
  refine ⟨fun t ht => ?_, fun f hf => ?_⟩
  · obtain ⟨hnone, rfl⟩ := memWrite_eq_next.1 ht
    exact ⟨rfl, (write_complete hnone).2⟩
  · obtain ⟨e, hsome, rfl⟩ := memWrite_eq_fault.1 hf
    rw [resume_memFault]
    refine ⟨rfl, ?_⟩
    obtain ⟨k, _, _, _, _, _, hread, hend⟩ := write_spec s.mem a n v
    obtain ⟨hnone, _⟩ | ⟨hk, hover, he⟩ | ⟨hk, hin, e', he, hbyte⟩ := hend
    · rw [hsome] at hnone; cases hnone
    · rw [hsome] at he; cases he
      exact ⟨k, hk, hread, .inl ⟨hover, rfl⟩⟩
    · rw [hsome] at he; cases he
      exact ⟨k, hk, hread, .inr ⟨hin, e, rfl, hbyte⟩⟩

/-- Settles O12: `read_write`, and each byte of that read. -/
theorem writtenValueReadsBack : Obligations.WrittenValueReadsBack := by
  intro s t a n v ht
  obtain ⟨hnone, rfl⟩ := memWrite_eq_next.1 ht
  have hread := read_write hnone
  exact ⟨memRead_eq_next.2 hread, fun k hk => readByte_eq_next.2 (readByte_of_read hread hk)⟩

/-! ### Accesses that cross a segment boundary (R73) -/

/-- Only ROM and RAM addresses can be read (R63). -/
theorem segment_of_readByte {m : Memory} {a : Address} {b : Byte} (h : m.readByte a = .ok b) :
    (segment a = .rom ∧ a.toNat ≤ 0x1FFFFFFFF) ∨ (segment a = .ram ∧ 0x300000000 ≤ a.toNat) := by
  obtain ⟨hbase, hlast, _⟩ | ⟨hbase, _⟩ := readByte_eq_ok.1 h
  · exact .inl ⟨segment_eq_rom ⟨hbase, hlast⟩, hlast⟩
  · exact .inr ⟨segment_eq_ram hbase, hbase⟩

/-- A read that completes stays in one segment: from ROM to RAM it would pass Hardware I/O. -/
theorem segment_eq_of_read {m : Memory} {a : Address} {n : Nat} {v : BitVec (8 * (n + 1))}
    (h : m.read a (n + 1) = .ok v) : segment a = segment (BitVec.ofNat 64 (a.toNat + n)) := by
  have hbytes := read_eq_ok.1 h
  have hfirst := segment_of_readByte (hbytes 0 (by omega)).2
  have hlast := segment_of_readByte (hbytes n (by omega)).2
  rw [toNat_ofNat_add (hbytes n (by omega)).1] at hlast
  rw [Nat.add_zero, BitVec.ofNat_toNat, BitVec.setWidth_eq] at hfirst
  obtain ⟨hs, ha⟩ | ⟨hs, ha⟩ := hfirst <;> obtain ⟨hs', ha'⟩ | ⟨hs', ha'⟩ := hlast
  · rw [hs, hs']
  · obtain ⟨i, hi⟩ : ∃ i, a.toNat + i = 0x200000000 := ⟨0x200000000 - a.toNat, by omega⟩
    have hmid := segment_of_readByte (hbytes i (by omega)).2
    rw [toNat_ofNat_add (hbytes i (by omega)).1] at hmid
    omega
  · omega
  · rw [hs, hs']

/-- A write that completes stays in RAM. -/
theorem segment_eq_of_write {m : Memory} {a : Address} {n : Nat} {v : BitVec (8 * (n + 1))}
    (h : (m.write a (n + 1) v).2 = none) : segment a = segment (BitVec.ofNat 64 (a.toNat + n)) := by
  obtain ⟨hram, _⟩ := write_complete h
  obtain ⟨_, hfirst, _⟩ := hram 0 (by omega)
  obtain ⟨hmax, hlast, _⟩ := hram n (by omega)
  rw [segment_eq_ram hfirst, segment_eq_ram (by rw [toNat_ofNat_add hmax]; exact hlast)]

/-- Settles O13: an access that completes stays in one segment. -/
theorem crossingAccessFails : Obligations.CrossingAccessFails := by
  intro m a n _ hcross
  constructor
  · cases h : m.read a (n + 1) with
    | error e => exact ⟨e, rfl⟩
    | ok v => exact absurd (segment_eq_of_read h) hcross
  · intro v
    cases h : (m.write a (n + 1) v).2 with
    | some e => exact ⟨e, rfl⟩
    | none => exact absurd (segment_eq_of_write h) hcross

/-! ### `zero()` (R74) -/

theorem readByte_zero {m : Memory} {a : Address} (hbase : 0x300000000 ≤ a.toNat)
    (hsize : a.toNat < 0x300000000 + m.ram.size) : m.zero.readByte a = .ok 0 := by
  rw [readByte_of_ram (segment_eq_ram hbase)]
  exact if_pos hsize

/-- Settles O14: an empty cell list reads as 0, and a reset's memory is `zero()`'s. -/
theorem zeroClearsRamOnly : Obligations.ZeroClearsRamOnly :=
  ⟨fun m => ⟨zero_rom m, rfl, ramByte_zero m, fun _ => rfl, fun _ => readByte_zero⟩, reset_mem⟩

/-! ### The fields of an instruction word in memory (R103) -/

/-- A part of a field is the part of the word at the field's place. -/
theorem extractLsb'_extractLsb' (w : Word) {k n j l : Nat} (h : j + l ≤ n) :
    (w.extractLsb' k n).extractLsb' j l = w.extractLsb' (k + j) l := by
  apply BitVec.eq_of_getLsbD_eq
  intro i hi
  simp [hi, show j + i < n by omega, Nat.add_assoc]

/-- Settles O7: byte `i` of the word is `readByte_of_read`, and lies in the field that holds its bits. -/
theorem wordLayoutInMemory : Obligations.WordLayoutInMemory := by
  intro m a w h
  have hbyte : ∀ i < 16, m.readByte (a + BitVec.ofNat 64 i) = .ok (w.extractLsb' (8 * i) 8) :=
    fun i hi => readByte_of_read h hi
  have hpart : ∀ {k n j : Nat}, j + 8 ≤ n → (w.extractLsb' k n).extractLsb' j 8 = w.extractLsb' (k + j) 8 :=
    extractLsb'_extractLsb' w
  refine ⟨fun i hi => ?_, ?_, ?_, hbyte 10 (by omega), hbyte 11 (by omega), hbyte 12 (by omega),
    hbyte 13 (by omega), ?_, ?_⟩
  · rw [hbyte i (by omega), fieldsOf, hpart (by omega), Nat.zero_add]
  · rw [fieldsOf, hpart (by omega)]; exact hbyte 8 (by omega)
  · rw [fieldsOf, hpart (by omega)]; exact hbyte 9 (by omega)
  · rw [fieldsOf, hpart (by omega)]; exact hbyte 14 (by omega)
  · rw [fieldsOf, hpart (by omega)]; exact hbyte 15 (by omega)

end Sys2Proof.Machine

/-! PROOFS. Registers by index class (10_state.md R24, R25; O16, O17) and the instructions
(42_set_immediate.md, 43_load_store.md): `SetLo` and `SetHi` (O19 to O22), `Load` (O22 to O24), `Store` (O25 to O27), the two
together (O28, O29), their frames (O30, O31) and their faults (O32). -/

namespace Sys2Proof.Machine

/-! ### Registers by index class (R24, R25) -/

theorem toNat_ofNat_general (k : Fin 26) : (BitVec.ofNat 8 k : RegIndex).toNat = k := by
  rw [BitVec.toNat_ofNat]
  omega

theorem readReg_not_general {s : State} {i : RegIndex} (h : 26 ≤ i.toNat) :
    readReg s i =
      if i = s.cfg.idxZero then .next 0
      else if i = s.cfg.idxOne then .next 1
      else if i = s.cfg.idxTwo then .next 2
      else .fault (.invalidRegister i s) := by
  unfold readReg
  rw [generalIndex_eq_none.2 h]

theorem writable_constant {s : State} {i : RegIndex} (h : 26 ≤ i.toNat)
    (hi : i ∈ [s.cfg.idxZero, s.cfg.idxOne, s.cfg.idxTwo]) :
    writable s i = .fault (.writeToReadOnlyRegister i s) :=
  writable_eq_fault.2 ⟨h, .inl ⟨by simpa using hi, rfl⟩⟩

theorem writable_invalid {s : State} {i : RegIndex} (h : 26 ≤ i.toNat)
    (hi : i ∉ [s.cfg.idxZero, s.cfg.idxOne, s.cfg.idxTwo]) :
    writable s i = .fault (.invalidRegister i s) :=
  writable_eq_fault.2 ⟨h, .inr ⟨by simpa using hi, rfl⟩⟩

theorem readReg_invalid {s : State} {i : RegIndex} (h : 26 ≤ i.toNat)
    (hi : i ∉ [s.cfg.idxZero, s.cfg.idxOne, s.cfg.idxTwo]) :
    readReg s i = .fault (.invalidRegister i s) := by
  simp only [List.mem_cons, List.not_mem_nil, or_false, not_or] at hi
  obtain ⟨hzero, hone, htwo⟩ := hi
  rw [readReg_not_general h, if_neg hzero, if_neg hone, if_neg htwo]

theorem writeReg_of_fault {s : State} {i : RegIndex} {f : Fault} (h : writable s i = .fault f) (v : Word) :
    writeReg s i v = .fault f := by
  unfold writeReg
  rw [h, andThen_fault]

/-- Settles O16: legal parameters are three different indices beyond the general ones. -/
theorem registerReadByClass : Obligations.RegisterReadByClass := by
  intro s ⟨⟨hzero, hone, htwo⟩, ⟨h01, h12, h02⟩, _⟩
  refine ⟨fun k => readReg_general (toNat_ofNat_general k) s, ?_, ?_, ?_, fun i hi h0 h1 h2 => ?_⟩
  · rw [readReg_not_general hzero, if_pos rfl]
  · rw [readReg_not_general hone, if_neg h01.symm, if_pos rfl]
  · rw [readReg_not_general htwo, if_neg h02.symm, if_neg h12.symm, if_pos rfl]
  · exact readReg_invalid hi (by simp [h0, h1, h2])

/-- Settles O17: `Writable(i)` decides the class. -/
theorem registerWriteByClass : Obligations.RegisterWriteByClass := by
  intro s v ⟨⟨hzero, hone, htwo⟩, _⟩
  refine ⟨fun k => writeReg_general (toNat_ofNat_general k) s v, fun i hi => ?_, fun i hi h0 h1 h2 => ?_⟩
  · have hbeyond : 26 ≤ i.toNat := by
      simp only [List.mem_cons, List.not_mem_nil, or_false] at hi
      obtain rfl | rfl | rfl := hi <;> assumption
    exact writeReg_of_fault (writable_constant hbeyond hi) v
  · exact writeReg_of_fault (writable_invalid hi (by simp [h0, h1, h2])) v

/-! ### The arms on a register of each class (R160, R161, R170, R171) -/

section
variable {s : State} {f : Fields} {k : Fin 26}

theorem exec_setLo_general (h : f.target.toNat = k) (s : State) :
    exec (.setLo f) s = .next (setG s k (withLow (getG s k) f.immediate)) := by
  show andThen (writable s f.target) _ = _
  rw [writable_eq_next.2 h]; rfl

theorem exec_setHi_general (h : f.target.toNat = k) (s : State) :
    exec (.setHi f) s = .next (setG s k (withHigh (getG s k) f.immediate)) := by
  show andThen (writable s f.target) _ = _
  rw [writable_eq_next.2 h]; rfl

theorem exec_load_general (h : f.target.toNat = k) (s : State) :
    exec (.load f) s = andThen (memRead s f.immediate 16) fun v => .next (setG s k v) := by
  show andThen (writable s f.target) _ = _
  rw [writable_eq_next.2 h]; rfl

theorem exec_store_of_readReg {v : Word} (h : readReg s f.target = .next v) :
    exec (.store f) s = memWrite s f.immediate 16 v := by
  show andThen (readReg s f.target) _ = _
  rw [h]; rfl

/-- The register check comes first, and its fault is the instruction's (D7). -/
theorem exec_of_writable_fault {i : Instr} {r : Fault}
    (hi : i ∈ [Instr.setLo f, Instr.setHi f, Instr.load f]) (h : writable s f.target = .fault r) : exec i s = .fault r := by
  simp only [List.mem_cons, List.not_mem_nil, or_false] at hi
  obtain rfl | rfl | rfl := hi <;> exact andThen_eq_fault.2 (.inl h)

/-- An instruction that writes a register and completes is one register write. -/
theorem exec_eq_setG {t : State} {i : Instr} (hi : i ∈ [Instr.setLo f, Instr.setHi f, Instr.load f])
    (h : exec i s = .next t) : ∃ (k : Fin 26) (v : Word), f.target.toNat = k ∧ t = setG s k v := by
  simp only [List.mem_cons, List.not_mem_nil, or_false] at hi
  obtain rfl | rfl | rfl := hi <;> obtain ⟨k, hk, h⟩ := andThen_eq_next.1 h
  · cases h
    exact ⟨k, _, writable_eq_next.1 hk, rfl⟩
  · cases h
    exact ⟨k, _, writable_eq_next.1 hk, rfl⟩
  · obtain ⟨v, _, h⟩ := andThen_eq_next.1 h
    cases h
    exact ⟨k, v, writable_eq_next.1 hk, rfl⟩

/-- A `Load` that completes reads its word into a general register. -/
theorem exec_load_eq_next {t : State} (h : exec (.load f) s = .next t) :
    ∃ (k : Fin 26) (v : Word), f.target.toNat = k ∧ s.mem.read f.immediate 16 = .ok v ∧ t = setG s k v := by
  obtain ⟨k, hk, h⟩ := andThen_eq_next.1 h
  obtain ⟨v, hv, h⟩ := andThen_eq_next.1 h
  cases h
  exact ⟨k, v, writable_eq_next.1 hk, memRead_eq_next.1 hv, rfl⟩

/-- A `Store` that completes writes a register's word. -/
theorem exec_store_eq_next {t : State} (h : exec (.store f) s = .next t) :
    ∃ v : Word, readReg s f.target = .next v ∧ (s.mem.write f.immediate 16 v).2 = none ∧
      t = setMem s (s.mem.write f.immediate 16 v).1 := by
  obtain ⟨v, hv, h⟩ := andThen_eq_next.1 h
  exact ⟨v, hv, memWrite_eq_next.1 h⟩

end

/-! ### SetLo and SetHi (R160, R161) -/

section
variable (v : Word) (imm lo hi : Half)

@[simp] theorem withLow_low : (withLow v imm).extractLsb' 0 64 = imm := BitVec.extractLsb'_append_eq_right

@[simp] theorem withLow_high : (withLow v imm).extractLsb' 64 64 = v.extractLsb' 64 64 :=
  BitVec.extractLsb'_append_eq_left

@[simp] theorem withHigh_low : (withHigh v imm).extractLsb' 0 64 = v.extractLsb' 0 64 :=
  BitVec.extractLsb'_append_eq_right

@[simp] theorem withHigh_high : (withHigh v imm).extractLsb' 64 64 = imm := BitVec.extractLsb'_append_eq_left

theorem withHigh_withLow : withHigh (withLow v lo) hi = hi ++ lo := by
  rw [withHigh, withLow_low]

theorem withLow_withHigh : withLow (withHigh v hi) lo = hi ++ lo := by
  rw [withLow, withHigh_high]

theorem withLow_append : withLow (hi ++ lo) lo = hi ++ lo := by
  rw [withLow, BitVec.extractLsb'_append_eq_left]

theorem withHigh_append : withHigh (hi ++ lo) hi = hi ++ lo := by
  rw [withHigh, BitVec.extractLsb'_append_eq_right]

end

/-- Settles O19: the arm on a general register, and the halves of `withLow`. -/
theorem setLoReplacesLowHalf : Obligations.SetLoReplacesLowHalf := fun s f t ht =>
  ⟨withLow (getG s t) f.immediate, exec_setLo_general ht s, withLow_low _ _, withLow_high _ _⟩

/-- Settles O20: the arm on a general register, and the halves of `withHigh`. -/
theorem setHiReplacesHighHalf : Obligations.SetHiReplacesHighHalf := fun s f t ht =>
  ⟨withHigh (getG s t) f.immediate, exec_setHi_general ht s, withHigh_high _ _, withHigh_low _ _⟩

/-- Settles O21: each order ends in `immHi ++ immLo`, which neither instruction changes again. -/
theorem setLoSetHiBuildAnyConstant : Obligations.SetLoSetHiBuildAnyConstant := by
  intro s lo hi t hlo hhi
  refine ⟨setG s t (hi.immediate ++ lo.immediate), ?_, ?_, rfl, ?_, ?_⟩
  · rw [exec_setLo_general hlo, andThen_next, exec_setHi_general hhi, getG_setG_same, withHigh_withLow,
      setG_setG]
  · rw [exec_setHi_general hhi, andThen_next, exec_setLo_general hlo, getG_setG_same, withLow_withHigh,
      setG_setG]
  · rw [exec_setLo_general hlo, getG_setG_same, withLow_append, setG_setG]
  · rw [exec_setHi_general hhi, getG_setG_same, withHigh_append, setG_setG]

/-- Settles O22: the fault of `Writable(i)` is the instruction's. -/
theorem writesToOtherIndicesFault : Obligations.WritesToOtherIndicesFault := fun _ _ _ hi hbeyond =>
  ⟨fun hconst => exec_of_writable_fault hi (writable_constant hbeyond hconst),
    fun hinvalid => exec_of_writable_fault hi (writable_invalid hbeyond hinvalid)⟩

/-! ### Load (R170) -/

/-- Sixteen bytes, or any number, of ROM or of RAM can be read (R63, R67). -/
theorem exists_read_of_range {m : Memory} {a : Address} {n : Nat} (h : RomRange m a n ∨ RamRange m a n) :
    ∃ v, m.read a n = .ok v := by
  cases hread : m.read a n with
  | ok v => exact ⟨v, rfl⟩
  | error e =>
    obtain ⟨k, hk, _, hfails⟩ := read_eq_error.1 hread
    have := bounds
    have hmax : a.toNat + k ≤ Config.maxAddress := by omega
    have htoNat := toNat_ofNat_add hmax
    refine absurd ⟨hmax, ?_⟩ hfails.not_byteReads
    obtain ⟨hbase, hsize, hlast⟩ | ⟨hbase, hsize, _⟩ := h
    · exact ⟨_, readByte_eq_ok.2 (.inl ⟨by omega, by omega, by omega, rfl⟩)⟩
    · exact ⟨_, readByte_eq_ok.2 (.inr ⟨by omega, by omega, rfl⟩)⟩

theorem exec_load_of_read {s : State} {f : Fields} {k : Fin 26} {v : Word} (hk : f.target.toNat = k)
    (hread : s.mem.read f.immediate 16 = .ok v) : exec (.load f) s = .next (setG s k v) := by
  rw [exec_load_general hk, memRead_eq_next.2 hread, andThen_next]

/-- Settles O23: the range can be read, and `readByte_of_read` says what each byte was. -/
theorem loadReadsSixteenBytes : Obligations.LoadReadsSixteenBytes := by
  intro s f t ht hrange
  obtain ⟨v, hread⟩ := exists_read_of_range hrange
  exact ⟨v, exec_load_of_read ht hread, fun i hi => readByte_of_read hread hi⟩

/-- Settles O24: the read's fault ends the `Load` before its register write. -/
theorem failedLoadChangesNothing : Obligations.FailedLoadChangesNothing := by
  intro s f e hgeneral hread
  rw [exec_load_general (k := ⟨f.target.toNat, by omega⟩) rfl, memRead_eq_fault.2 ⟨e, hread, rfl⟩,
    andThen_fault]

/-! ### Store (R171) -/

/-- A byte write of the RAM segment fails only beyond the device (R64). -/
theorem writeByte_ram_error {m : Memory} {a : Address} {b : Byte} {e : MemError}
    (hbase : 0x300000000 ≤ a.toNat) (h : m.writeByte a b = .error e) :
    0x300000000 + m.ram.size ≤ a.toNat ∧ e = .invalidAddress a := by
  rw [writeByte_of_ram (segment_eq_ram hbase)] at h
  split_ifs at h with hin
  cases h
  exact ⟨not_lt.1 hin, rfl⟩

/-- How a write that begins in RAM ends: it is complete, or it has written up to the end of the device or of
the address space (R68, R248). -/
theorem write_from_ram {m : Memory} {a : Address} {n : Nat} (v : BitVec (8 * n))
    (hbase : 0x300000000 ≤ a.toNat) (hsize : a.toNat < 0x300000000 + m.ram.size) :
    ((m.write a n v).2 = none ∧ RamRange m a n) ∨
      ∃ k < n, (∀ x : Address, (m.write a n v).1.readByte x =
          if a.toNat ≤ x.toNat ∧ x.toNat < a.toNat + k then
            .ok (v.extractLsb' (8 * (x.toNat - a.toNat)) 8) else m.readByte x) ∧
        ((a.toNat + k = 0x10000000000000000 ∧ a.toNat + k ≤ 0x300000000 + m.ram.size ∧
            (m.write a n v).2 = some .memoryOverflow) ∨
          (a.toNat + k = 0x300000000 + m.ram.size ∧ a.toNat + k ≤ 0xFFFFFFFFFFFFFFFF ∧
            (m.write a n v).2 = some (.invalidAddress (BitVec.ofNat 64 (a.toNat + k))))) := by
  have := bounds
  obtain ⟨k, hk, hram, _, _, _, hread, hend⟩ := write_spec m a n v
  have hreached : a.toNat + k ≤ 0xFFFFFFFFFFFFFFFF + 1 ∧ a.toNat + k ≤ 0x300000000 + m.ram.size := by
    cases k with
    | zero => omega
    | succ k => have := hram k (by omega); omega
  obtain ⟨hnone, rfl⟩ | ⟨hk, hover, he⟩ | ⟨hk, hin, e, he, hbyte⟩ := hend
  · exact .inl ⟨hnone, hbase, hreached.2, hreached.1⟩
  · exact .inr ⟨k, hk, hread, .inl ⟨by omega, hreached.2, he⟩⟩
  · have htoNat := toNat_ofNat_add hin
    obtain ⟨hend, rfl⟩ := writeByte_ram_error (by omega) (hbyte 0)
    exact .inr ⟨k, hk, hread, .inr ⟨by omega, hin, he⟩⟩

/-- A write whose first byte cannot be written has written nothing (R68). -/
theorem write_of_writeByte_error {m : Memory} {a : Address} {n : Nat} (v : BitVec (8 * (n + 1)))
    {e : MemError} (h : ∀ b, m.writeByte a b = .error e) : m.write a (n + 1) v = (m, some e) := by
  show m.writeBytes a.toNat (v.extractLsb' 0 8 :: leBytes (v >>> 8) n) = _
  have hmax : ¬ Config.maxAddress < a.toNat := not_lt.2 (Nat.le_of_lt_succ a.isLt)
  simp only [Memory.writeBytes, if_neg hmax, BitVec.ofNat_toNat, BitVec.setWidth_eq, h]

section
variable {s : State} {f : Fields} {v : Word} (h : readReg s f.target = .next v)
include h

theorem exec_store_of_write_none (hnone : (s.mem.write f.immediate 16 v).2 = none) :
    exec (.store f) s = .next (setMem s (s.mem.write f.immediate 16 v).1) := by
  rw [exec_store_of_readReg h]
  exact memWrite_eq_next.2 ⟨hnone, rfl⟩

theorem exec_store_of_write_some {e : MemError} (he : (s.mem.write f.immediate 16 v).2 = some e) :
    exec (.store f) s = .fault (memFault e (setMem s (s.mem.write f.immediate 16 v).1)) := by
  rw [exec_store_of_readReg h]
  exact memWrite_eq_fault.2 ⟨e, he, rfl⟩

theorem exec_store_of_writeByte_error {e : MemError} (he : ∀ b, s.mem.writeByte f.immediate b = .error e) :
    exec (.store f) s = .fault (memFault e s) := by
  have hwrite := write_of_writeByte_error (n := 15) v he
  rw [exec_store_of_write_some h (congrArg Prod.snd hwrite), congrArg Prod.fst hwrite]
  rfl

end

/-- Settles O25: a write that begins in RAM with room for 16 bytes is complete. -/
theorem storeWritesSixteenBytes : Obligations.StoreWritesSixteenBytes := by
  intro s f v hv ⟨hbase, hsize, hmax⟩
  have := bounds
  obtain ⟨hnone, _⟩ | ⟨k, hk, _, ⟨hover, _⟩ | ⟨hend, _⟩⟩ :=
    write_from_ram (m := s.mem) (a := f.immediate) (n := 16) v hbase (by omega)
  · refine ⟨_, exec_store_of_write_none hv hnone, fun i hi => readByte_of_read (read_write hnone) hi,
      fun x hx => ?_⟩
    rw [(write_complete hnone).2, if_neg hx]
  · omega
  · omega

/-- Settles O26: `write_from_ram`, with the two ends apart. -/
theorem storeIsTornAtTheEndOfRam : Obligations.StoreIsTornAtTheEndOfRam := by
  intro s f v hv hbase hsize
  have := bounds
  have hwrite := write_from_ram (m := s.mem) (n := 16) v hbase hsize
  refine ⟨fun hend hlong => ?_, fun hend hlong => ?_⟩
  · obtain ⟨_, _, hfits, _⟩ | ⟨k, hk, hread, ⟨hover, _⟩ | ⟨hk', _, he⟩⟩ := hwrite
    · omega
    · omega
    · rw [hk'] at hread he
      exact ⟨_, exec_store_of_write_some hv he, hread⟩
  · obtain ⟨_, _, _, hfits⟩ | ⟨k, hk, hread, ⟨hk', _, he⟩ | ⟨hk', hin, _⟩⟩ := hwrite
    · omega
    · refine ⟨_, exec_store_of_write_some hv he, fun x => (hread x).trans ?_⟩
      simp only [hk', and_iff_left x.isLt]
    · omega

/-- Settles O27: the register read comes first, then the fault of byte 0. -/
theorem storeFaultsBeforeWriting : Obligations.StoreFaultsBeforeWriting := by
  intro s f
  refine ⟨fun hbeyond hinvalid => ?_, fun v hv => ⟨fun ha => ?_, fun ha => ?_, fun ha => ?_, fun ha => ?_,
    fun hend hbase => ?_⟩⟩
  · exact andThen_eq_fault.2 (.inl (readReg_invalid hbeyond hinvalid))
  · exact exec_store_of_writeByte_error hv fun b => writeByte_of_null (segment_eq_null ha)
  · exact exec_store_of_writeByte_error hv fun b => writeByte_of_system (segment_eq_system ha)
  · exact exec_store_of_writeByte_error hv fun b => writeByte_of_rom (segment_eq_rom ha)
  · exact exec_store_of_writeByte_error hv fun b => writeByte_of_hardwareIO (segment_eq_hardwareIO ha)
  · refine exec_store_of_writeByte_error (e := .invalidAddress f.immediate) hv fun b => ?_
    rw [writeByte_of_ram (segment_eq_ram hbase), if_neg (not_lt.2 hend)]

/-! ### Load and Store of one address (R170, R171) -/

/-- A complete run of writes fills the RAM device with its bytes. -/
theorem writeBytes_eq_deviceFill {m : Memory} {a : Nat} {bs : List Byte} (h : (m.writeBytes a bs).2 = none) :
    (m.writeBytes a bs).1 = { m with ram := deviceFill m.ram a bs } := by
  induction bs generalizing m a with
  | nil => rfl
  | cons b bs ih =>
    unfold Memory.writeBytes at h ⊢
    by_cases hover : Config.maxAddress < a
    · rw [if_pos hover] at h
      cases h
    · rw [if_neg hover] at h ⊢
      have htoNat : (BitVec.ofNat 64 a).toNat = a := by
        rw [BitVec.toNat_ofNat]; exact Nat.mod_eq_of_lt (Nat.lt_succ_of_le (not_lt.1 hover))
      cases hbyte : m.writeByte (BitVec.ofNat 64 a) b with
      | error e => rw [hbyte] at h; cases h
      | ok m' =>
        simp only [hbyte] at h ⊢
        obtain ⟨_, rfl⟩ := writeByte_eq_ok.1 hbyte
        rw [ih h, htoNat]
        rfl

/-- Filling a canonical device with the bytes it holds leaves the same data. -/
theorem deviceFill_eq_self {d : Device} {base o : Nat} {bs : List Byte} (hd : d.wf base) (hbase : base ≤ o)
    (hsize : o + bs.length ≤ base + d.size) (h : ∀ i (hi : i < bs.length), deviceRead d (o + i) = bs[i]) :
    deviceFill d o bs = d := by
  obtain ⟨hsorted, hcells⟩ := deviceFill_wf hd hbase hsize
  have hread : ∀ x, deviceRead (deviceFill d o bs) x = deviceRead d x := by
    intro x
    rw [deviceRead_deviceFill]
    split_ifs with hx
    · have hx' := h (x - o) (by omega)
      rw [Nat.add_sub_cancel' hx.1] at hx'
      rw [hx', List.getD_eq_getElem]
    · rfl
  have hsame : (deviceFill d o bs).cells = d.cells :=
    cells_ext hsorted hd.1 (fun c hc => (hcells c hc).1) (fun c hc => (hd.2 c hc).1) hread
  calc deviceFill d o bs = ⟨(deviceFill d o bs).size, (deviceFill d o bs).cells⟩ := rfl
    _ = ⟨d.size, d.cells⟩ := by rw [hsame, deviceFill_size]
    _ = d := rfl

/-- Writing back the value just read leaves memory as it was, as data. -/
theorem write_read_eq_self {m : Memory} {a : Address} {n : Nat} {v : BitVec (8 * n)} (hm : m.wf)
    (hread : m.read a n = .ok v) (hnone : (m.write a n v).2 = none) : (m.write a n v).1 = m := by
  obtain ⟨hram, _⟩ := write_complete hnone
  have hself : deviceFill m.ram a.toNat (leBytes v n) = m.ram := by
    cases n with
    | zero => rfl
    | succ n =>
      obtain ⟨_, hbase, _⟩ := hram 0 (by omega)
      obtain ⟨_, _, hsize⟩ := hram n (by omega)
      refine deviceFill_eq_self hm.2 hbase (by rw [leBytes_length]; omega) fun i hi => ?_
      rw [leBytes_length] at hi
      obtain ⟨hmax, hbase, hsize⟩ := hram i hi
      have hbyte := (read_eq_ok.1 hread i hi).2
      rw [readByte_of_ram (segment_eq_ram (by rw [toNat_ofNat_add hmax]; exact hbase)),
        toNat_ofNat_add hmax, if_pos hsize] at hbyte
      rw [leBytes_getElem]
      exact Except.ok.inj hbyte
  rw [Memory.write, writeBytes_eq_deviceFill hnone, hself]

/-- Settles O28: the stored register is general and holds the word that was read. -/
theorem loadThenStoreBackKeepsMemory : Obligations.LoadThenStoreBackKeepsMemory := by
  intro s t u f g hwf htarget haddr hload hstore
  obtain ⟨k, v, hk, hread, rfl⟩ := exec_load_eq_next hload
  obtain ⟨v', hv', hnone, rfl⟩ := exec_store_eq_next hstore
  rw [← htarget, readReg_general hk, getG_setG_same] at hv'
  cases hv'
  rw [← haddr] at hnone ⊢
  exact write_read_eq_self hwf hread hnone

/-- Settles O29: what the `Store` left reads back as its value. -/
theorem storeThenLoadGivesTheValue : Obligations.StoreThenLoadGivesTheValue := by
  intro s t f g k v hv hk haddr hstore
  obtain ⟨v', hv', hnone, rfl⟩ := exec_store_eq_next hstore
  rw [hv] at hv'
  cases hv'
  exact exec_load_of_read hk (by rw [← haddr]; exact read_write hnone)

/-! ### The frames (R38) -/

/-- A write, complete or not, reaches no byte outside its `n` addresses (R68). -/
theorem readByte_write_outside {m : Memory} {a : Address} {n : Nat} (v : BitVec (8 * n)) {x : Address}
    (hx : ¬(a.toNat ≤ x.toNat ∧ x.toNat < a.toNat + n)) : (m.write a n v).1.readByte x = m.readByte x := by
  obtain ⟨k, hk, _, _, _, _, hread, _⟩ := write_spec m a n v
  rw [hread, if_neg (by omega)]

/-- Settles O30: such an instruction is one `setG`. -/
theorem registerInstructionsFrame : Obligations.RegisterInstructionsFrame := by
  intro s t f i hi h
  obtain ⟨k, v, hk, rfl⟩ := exec_eq_setG hi h
  refine ⟨rfl, fun l hl => ?_, fun _ => rfl⟩
  have hne : l ≠ k := by rintro rfl; exact hl hk
  exact (getG_setG s l k v).trans (if_neg hne)

/-- Settles O31: a `Store` that completes is one write, and no write reaches past its 16 bytes. -/
theorem storeFrame : Obligations.StoreFrame := by
  rintro s t f a rfl h
  obtain ⟨v, _, _, rfl⟩ := exec_store_eq_next h
  obtain ⟨_, hrom, hsize, _⟩ := meaningFrame_write s f.immediate 16 v
  exact ⟨rfl, hrom, hsize, fun x hx => readByte_write_outside (n := 16) v hx⟩

/-! ### The faults (R215) -/

section
variable {s : State} {f : Fields} {r : Fault}

/-- The errors of one byte's read (R63). -/
theorem readByte_error_cases {m : Memory} {a : Address} {e : MemError} (h : m.readByte a = .error e) :
    e = .nullAddress a ∨ e = .reservedAddress a ∨ e = .invalidAddress a := by
  cases hs : segment a with
  | null => rw [readByte_of_null hs] at h; cases h; exact .inl rfl
  | system => rw [readByte_of_system hs] at h; cases h; exact .inr (.inl rfl)
  | rom => rw [readByte_of_rom hs] at h; split_ifs at h; cases h; exact .inr (.inr rfl)
  | hardwareIO => rw [readByte_of_hardwareIO hs] at h; cases h; exact .inr (.inl rfl)
  | ram => rw [readByte_of_ram hs] at h; split_ifs at h; cases h; exact .inr (.inr rfl)

/-- The errors of one byte's write (R64). -/
theorem writeByte_error_cases {m : Memory} {a : Address} {b : Byte} {e : MemError}
    (h : m.writeByte a b = .error e) :
    e = .nullAddress a ∨ e = .reservedAddress a ∨ e = .invalidAddress a ∨ e = .writeToReadOnlyAddress a := by
  cases hs : segment a with
  | null => rw [writeByte_of_null hs] at h; cases h; exact .inl rfl
  | system => rw [writeByte_of_system hs] at h; cases h; exact .inr (.inl rfl)
  | rom => rw [writeByte_of_rom hs] at h; cases h; exact .inr (.inr (.inr rfl))
  | hardwareIO => rw [writeByte_of_hardwareIO hs] at h; cases h; exact .inr (.inl rfl)
  | ram => rw [writeByte_of_ram hs] at h; split_ifs at h; cases h; exact .inr (.inr (.inl rfl))

/-- The errors of a read: an overflow only where the access leaves 64 bits (R67, R76). -/
theorem read_error_cases {m : Memory} {a : Address} {n : Nat} {e : MemError} (h : m.read a n = .error e) :
    (e = .memoryOverflow ∧ Config.maxAddress + 1 < a.toNat + n) ∨
      ∃ x, e = .nullAddress x ∨ e = .reservedAddress x ∨ e = .invalidAddress x := by
  obtain ⟨k, hk, _, ⟨hover, rfl⟩ | ⟨_, he⟩⟩ := read_eq_error.1 h
  · exact .inl ⟨rfl, by omega⟩
  · exact .inr ⟨_, readByte_error_cases he⟩

/-- The errors of a write (R68). -/
theorem write_error_cases {m : Memory} {a : Address} {n : Nat} {v : BitVec (8 * n)} {e : MemError}
    (h : (m.write a n v).2 = some e) :
    e = .memoryOverflow ∨ ∃ x, e = .nullAddress x ∨ e = .reservedAddress x ∨ e = .invalidAddress x ∨
      e = .writeToReadOnlyAddress x := by
  obtain ⟨k, _, _, _, _, _, _, hend⟩ := write_spec m a n v
  obtain ⟨hnone, _⟩ | ⟨_, _, he⟩ | ⟨_, _, e', he, hbyte⟩ := hend
  · rw [h] at hnone; cases hnone
  · rw [h] at he; cases he; exact .inl rfl
  · rw [h] at he; cases he; exact .inr ⟨_, writeByte_error_cases (hbyte 0)⟩

theorem writable_fault_cases {i : RegIndex} (h : writable s i = .fault r) :
    r = .invalidRegister i s ∨ r = .writeToReadOnlyRegister i s := by
  obtain ⟨_, ⟨_, hr⟩ | ⟨_, hr⟩⟩ := writable_eq_fault.1 h
  · exact .inr hr
  · exact .inl hr

theorem exec_setLo_fault_cases (h : exec (.setLo f) s = .fault r) :
    r = .invalidRegister f.target s ∨ r = .writeToReadOnlyRegister f.target s := by
  obtain h | ⟨_, _, h⟩ := andThen_eq_fault.1 h
  · exact writable_fault_cases h
  · cases h

theorem exec_setHi_fault_cases (h : exec (.setHi f) s = .fault r) :
    r = .invalidRegister f.target s ∨ r = .writeToReadOnlyRegister f.target s := by
  obtain h | ⟨_, _, h⟩ := andThen_eq_fault.1 h
  · exact writable_fault_cases h
  · cases h

theorem exec_load_fault_cases (h : exec (.load f) s = .fault r) :
    r = .invalidRegister f.target s ∨ r = .writeToReadOnlyRegister f.target s ∨ r = .memoryOverflow s ∨
      ∃ a, r = .nullAddress a s ∨ r = .reservedAddress a s ∨ r = .invalidAddress a s := by
  obtain h | ⟨_, _, h⟩ := andThen_eq_fault.1 h
  · exact (writable_fault_cases h).imp_right .inl
  · obtain h | ⟨_, _, h⟩ := andThen_eq_fault.1 h
    · obtain ⟨e, he, rfl⟩ := memRead_eq_fault.1 h
      obtain ⟨rfl, _⟩ | ⟨x, hx⟩ := read_error_cases he
      · exact .inr (.inr (.inl rfl))
      · refine .inr (.inr (.inr ⟨x, ?_⟩))
        obtain rfl | rfl | rfl := hx <;> simp [memFault]
    · cases h

theorem exec_store_fault_cases (h : exec (.store f) s = .fault r) :
    r = .invalidRegister f.target s ∨ r = .memoryOverflow (resume r) ∨
      ∃ a, r = .nullAddress a (resume r) ∨ r = .reservedAddress a (resume r) ∨
        r = .invalidAddress a (resume r) ∨ r = .writeToReadOnlyAddress a (resume r) := by
  obtain h | ⟨_, _, h⟩ := andThen_eq_fault.1 h
  · exact .inl (readReg_eq_fault h).2
  · obtain ⟨e, he, rfl⟩ := memWrite_eq_fault.1 h
    rw [resume_memFault]
    obtain rfl | ⟨x, hx⟩ := write_error_cases he
    · exact .inr (.inl rfl)
    · refine .inr (.inr ⟨x, ?_⟩)
      obtain rfl | rfl | rfl | rfl := hx <;> simp [memFault]

end

/-- Settles O32: the faults of each arm. -/
theorem faultsByInstruction : Obligations.FaultsByInstruction := fun _ _ _ =>
  ⟨nofun, fun h => h.elim exec_setLo_fault_cases exec_setHi_fault_cases, exec_load_fault_cases,
    exec_store_fault_cases, fun _ _ => exec_ne_refused⟩

end Sys2Proof.Machine

/-! PROOFS. The step (40_step_engine.md R130, R131, R135, R140; 20_memory.md R81; 60_exceptions.md R208): fetch
(O35), the composition of a step (O33), where it goes (O39, O41) and what its faults are and leave (O37,
O38). -/

namespace Sys2Proof.Machine

section
variable {s : State}

/-! ### Fetch (R131) -/

theorem fetch_of_read {w : Word} (hpc : s.pc.toNat + 16 ≤ Config.maxAddress)
    (hread : s.mem.read s.pc 16 = .ok w) : fetch s = .next (latch s w) :=
  fetch_eq_next.2 ⟨hpc, w, hread, rfl⟩

/-- The overflow check comes before the read, so the read of a fetch does not leave 64 bits (D9). -/
theorem fetch_fault_cases {f : Fault} (h : fetch s = .fault f) :
    f = .programCounterOverflow s ∨
      ∃ a, f = .nullAddress a s ∨ f = .reservedAddress a s ∨ f = .invalidAddress a s := by
  obtain ⟨_, hf⟩ | ⟨hpc, e, he, rfl⟩ := fetch_eq_fault.1 h
  · exact .inl hf
  · obtain ⟨_, hover⟩ | ⟨a, ha⟩ := read_error_cases he
    · omega
    · refine .inr ⟨a, ?_⟩
      obtain rfl | rfl | rfl := ha <;> simp [memFault]

/-- Settles O35: the two branches of the overflow check, and the faults of a fetch. -/
theorem fetchRule : Obligations.FetchRule := by
  intro s
  refine ⟨fun hpc => ?_, fun hpc => ⟨fun e he => ?_, fun w hw => ?_⟩, fun u h => ?_⟩
  · exact fetch_eq_fault.2 (.inl ⟨by have := bounds; omega, rfl⟩)
  · exact fetch_eq_fault.2 (.inr ⟨by have := bounds; omega, e, he, rfl⟩)
  · exact fetch_of_read (by have := bounds; omega) hw
  · obtain h | ⟨_, h | h | h⟩ := fetch_fault_cases h <;> cases h

/-! ### Fetch, decode, execute (R130) -/

theorem stepWithCost_of_decode {w : Word} {i : Instr} (hrun : s.runState = .running)
    (hpc : s.pc.toNat + 16 ≤ Config.maxAddress) (hread : s.mem.read s.pc 16 = .ok w)
    (hdecode : decode w = .ok i) :
    stepWithCost s = andThen (exec i (latch s w)) fun t => .next (t, s.cfg.cycles.cost i) := by
  unfold stepWithCost
  simp only [hrun, fetch_of_read hpc hread, andThen_next, latch_ir, hdecode]

/-- Settles O33: the step is the step with its cost, the cost dropped. -/
theorem stepRunsDecodedInstruction : Obligations.StepRunsDecodedInstruction := by
  intro s w i hrun hpc hread hdecode
  have hcost := stepWithCost_of_decode hrun hpc hread hdecode
  refine ⟨?_, hcost⟩
  show step s = exec i (latch s w)
  unfold step
  rw [hcost]
  cases exec i (latch s w) <;> rfl

/-- Settles O39: no instruction writes `PC` or `IR`, so both are as the fetch left them. -/
theorem executionIsSequential : Obligations.ExecutionIsSequential := by
  intro s t h
  obtain ⟨_, hpc, w, i, hread, _, hx⟩ := step_eq_next.1 h
  have hframe := exec_leaves_meaningFrame i (latch s w)
  rw [hx] at hframe
  have htpc : t.pc = s.pc + 16 := congrArg State.pc hframe.others
  have htir : t.ir = w := congrArg State.ir hframe.others
  rw [htpc, htir]
  exact ⟨pc_add_toNat hpc, hread⟩

/-- Settles O41: the fetch reads the 16 bytes that the `Store` wrote. -/
theorem fetchSeesTheStore : Obligations.FetchSeesTheStore := by
  intro s t f v hv hstore hpc
  obtain ⟨v', hv', hnone, rfl⟩ := exec_store_eq_next hstore
  rw [hv] at hv'
  cases hv'
  exact fetch_of_read (s := { setMem s (s.mem.write f.immediate 16 v).1 with pc := f.immediate }) hpc
    (read_write hnone)

/-! ### The overflow of PC (R208) -/

theorem memFault_ne_programCounterOverflow {e : MemError} {t u : State} :
    memFault e t ≠ .programCounterOverflow u := by
  cases e <;> nofun

/-- Only a fetch raises `ProgramCounterOverflow`. -/
theorem exec_ne_programCounterOverflow {i : Instr} {u : State} :
    exec i s ≠ .fault (.programCounterOverflow u) := by
  intro h
  cases i with
  | null f => cases h
  | setLo f => obtain h | h := exec_setLo_fault_cases h <;> cases h
  | setHi f => obtain h | h := exec_setHi_fault_cases h <;> cases h
  | load f => obtain h | h | h | ⟨_, h | h | h⟩ := exec_load_fault_cases h <;> cases h
  | store f => obtain h | h | ⟨_, h | h | h | h⟩ := exec_store_fault_cases h <;> cases h

theorem step_eq_programCounterOverflow {u : State} :
    step s = .fault (.programCounterOverflow u) ↔
      s.runState = .running ∧ Config.maxAddress < s.pc.toNat + 16 ∧ u = s := by
  rw [step_eq_fault, stepWithCost_eq_fault]
  refine and_congr_right fun _ => ⟨?_, ?_⟩
  · rintro (hf | ⟨_, w, _, ⟨_, _, hf⟩ | ⟨_, _, hx⟩⟩)
    · obtain ⟨hpc, hf⟩ | ⟨_, _, _, hf⟩ := fetch_eq_fault.1 hf
      · cases hf; exact ⟨hpc, rfl⟩
      · exact absurd hf.symm memFault_ne_programCounterOverflow
    · cases hf
    · exact absurd hx exec_ne_programCounterOverflow
  · rintro ⟨hpc, rfl⟩
    exact .inl (fetch_eq_fault.2 (.inl ⟨hpc, rfl⟩))

end

/-- Settles O37: `step_eq_programCounterOverflow`, with the bound as the spec writes it. -/
theorem programCounterOverflowExactly : Obligations.ProgramCounterOverflowExactly := by
  intro s hrun
  have := bounds
  refine ⟨fun hpc => step_eq_programCounterOverflow.2 ⟨hrun, by omega, rfl⟩, fun u h => ?_⟩
  obtain ⟨_, hpc, rfl⟩ := step_eq_programCounterOverflow.1 h
  exact ⟨by omega, rfl⟩

/-! ### What a step that faults leaves (R135) -/

/-- Settles O38: the fault is the fetch's, the decoder's, or an instruction's, which leaves what was latched
but for a `Store`'s bytes. -/
theorem faultedStepLeaves : Obligations.FaultedStepLeaves := by
  intro s f h
  obtain ⟨_, hf | ⟨hpc, w, hread, hrest⟩⟩ := stepWithCost_eq_fault.1 (step_eq_fault.1 h)
  · exact .inl ⟨hf, fetch_fault_cases hf⟩
  · refine .inr ⟨w, fetch_of_read hpc hread, hread, ?_⟩
    obtain ⟨op, _, rfl⟩ | ⟨i, hdecode, hx⟩ := hrest
    · exact ⟨rfl, rfl, rfl, .inl rfl⟩
    · obtain hleft | ⟨g, v, e, rfl, _, rfl⟩ := exec_eq_fault hx
      · rw [hleft]
        exact ⟨rfl, rfl, rfl, .inl rfl⟩
      · rw [resume_memFault]
        obtain ⟨_, hrom, hsize, _⟩ := meaningFrame_write (latch s w) (addressOf g) 16 v
        exact ⟨rfl, hrom, hsize, .inr ⟨g, hdecode, fun x hx => readByte_write_outside (n := 16) v hx⟩⟩

end Sys2Proof.Machine

/-! PROOFS. The pacer and the run (45_clock_pacer.md R191 to R196; 40_step_engine.md R137): refusals (O34), the
poll (O50), the ticks of an instruction (O51), and a run as repeated steps (O52). -/

namespace Sys2Proof.Machine

/-! ### Refusals (R35, R191) -/

theorem startRun_uninitialized {s : State} (hz : Rat) (h : s.runState = .uninitialized) :
    startRun hz s = .refused .uninitialized := by
  unfold startRun; rw [h]

theorem startRun_nonpositive {s : State} {hz : Rat} (h : s.runState = .running) (hhz : hz ≤ 0) :
    startRun hz s = .refused .clockNotPositive := by
  unfold startRun; rw [h]
  exact if_neg (not_lt.2 hhz)

theorem run_of_startRun_refused {s : State} {hz : Rat} {q : Refusal} (h : startRun hz s = .refused q)
    (times : List Rat) : run hz times s = .refused q := by
  unfold run; rw [h, andThen_refused]

/-- Settles O34: each refusal is its operation's first check. -/
theorem refusedBeforeReset : Obligations.RefusedBeforeReset := by
  refine ⟨fun s hun => ⟨step_eq_refused.2 ⟨hun, rfl⟩, fun t => ?_⟩, fun s q hrun h => ?_,
    fun s hz hrun hhz => ?_, fun s now hrun hclock => ?_, fun image ramSize hz cap cfg hhz => ?_⟩
  · have hstart := startRun_uninitialized t hun
    exact ⟨hstart, runIteration_uninitialized t hun, run_of_startRun_refused hstart⟩
  · obtain ⟨hun, _⟩ := step_eq_refused.1 h
    rw [hrun] at hun; cases hun
  · have hstart := startRun_nonpositive hrun hhz
    exact ⟨hstart, run_of_startRun_refused hstart⟩
  · rw [runIteration_running now hrun, poll_refused now hclock, andThen_refused]
  · exact if_neg (not_lt.2 hhz)

/-! ### The poll (R192) -/

theorem crossed_of_lt {p : Pacer} {now : Rat} (h : period p < now - p.lastGrant) : crossed p now = true := by
  simp [crossed, h]

theorem crossed_of_gt {p : Pacer} {now : Rat} (h : now - p.lastGrant < period p) : crossed p now = false := by
  simp [crossed, h.le, h.ne]

/-- Settles O50: the two cases of a poll, and the two of a tick. -/
theorem pollGrantsAfterAPeriod : Obligations.PollGrantsAfterAPeriod := by
  intro s now
  refine ⟨poll_refused now, fun hclock => ?_, fun howed => if_pos howed, fun howed => if_neg howed⟩
  have hiteration (hrun : s.runState = .running) := runIteration_running now hrun
  obtain ⟨hcrossed, hpoll⟩ | ⟨hcrossed, last, hpoll⟩ := poll_cases now hclock <;> rw [hpoll] at hiteration
  · refine ⟨s.pacer.lastGrant, false, hpoll, fun h => ?_, fun _ => rfl,
      fun _ => ⟨rfl, hiteration⟩, nofun⟩
    exact hcrossed.symm.trans (crossed_of_lt h)
  · refine ⟨last, true, hpoll, fun _ => rfl, fun h => ?_, nofun, fun _ => hiteration⟩
    exact hcrossed.symm.trans (crossed_of_gt h)

/-! ### The cycle budget (R193, R194) -/

/-- While cycles are owed, a granted tick pays one and does nothing else. -/
theorem ticks_paying {n : Nat} {s : State} (h : n ≤ s.pacer.owed) :
    ticks n s = .next (setPacer s { s.pacer with owed := s.pacer.owed - n }) := by
  induction n generalizing s with
  | zero => rfl
  | succ n ih =>
    have htick : tick s = .next (setPacer s { s.pacer with owed := s.pacer.owed - 1 }) := if_neg (by omega)
    have hpaid : n ≤ (setPacer s { s.pacer with owed := s.pacer.owed - 1 }).pacer.owed :=
      Nat.le_sub_of_add_le h
    rw [ticks, htick, andThen_next, ih hpaid]
    simp only [setPacer, Nat.sub_sub, Nat.add_comm 1]

/-- Settles O51: the first tick issues and pays the first cycle, the others pay. -/
theorem instructionOccupiesItsCycles : Obligations.InstructionOccupiesItsCycles := by
  intro s t c howed hstep n hn hnc
  obtain ⟨n, rfl⟩ : ∃ k, n = k + 1 := ⟨n - 1, by omega⟩
  have htick : tick s = .next (setPacer t { t.pacer with owed := c - 1 }) := by
    unfold tick
    rw [if_pos howed, hstep, andThen_next]
  have hpaid : n ≤ (setPacer t { t.pacer with owed := c - 1 }).pacer.owed := Nat.le_sub_of_add_le hnc
  rw [ticks, htick, andThen_next, ticks_paying hpaid]
  simp only [setPacer, Nat.sub_sub, Nat.add_comm 1]

/-! ### A run is repeated steps (R137, R196) -/

/-- A tick pays, or is the step of the state without its pacer. -/
theorem tick_setPacer_cases {s : State} (p : Pacer) (hrun : s.runState = .running) :
    (∃ q, q.clockHz = p.clockHz ∧ tick (setPacer s p) = .next (setPacer s q)) ∨
    (∃ u q, step s = .next u ∧ q.clockHz = p.clockHz ∧ tick (setPacer s p) = .next (setPacer u q)) ∨
    (∃ r q, step s = .fault r ∧ tick (setPacer s p) = .fault (leaving r (setPacer (resume r) q))) := by
  obtain ⟨_, htick⟩ | ⟨_, htick⟩ := tick_cases (setPacer s p)
  · exact .inl ⟨{ p with owed := p.owed - 1 }, rfl, htick⟩
  · rw [stepWithCost_setPacer] at htick
    cases hstep : stepWithCost s with
    | next r =>
      rw [hstep] at htick
      exact .inr (.inl ⟨r.1, { p with owed := r.2 - 1 }, by rw [step, hstep, andThen_next], rfl, htick⟩)
    | fault r =>
      rw [hstep] at htick
      exact .inr (.inr ⟨r, p, step_eq_fault.2 hstep, htick⟩)
    | refused q =>
      have hrefused : step s = .refused q := by rw [step, hstep, andThen_refused]
      rw [(step_eq_refused.1 hrefused).1] at hrun
      cases hrun

/-- So does an iteration: its poll touches the pacer alone (R192). -/
theorem runIteration_setPacer_cases (now : Rat) {s : State} {p : Pacer} (hrun : s.runState = .running)
    (hclock : 0 < p.clockHz) :
    (∃ q, q.clockHz = p.clockHz ∧ runIteration now (setPacer s p) = .next (setPacer s q)) ∨
    (∃ u q, step s = .next u ∧ q.clockHz = p.clockHz ∧
      runIteration now (setPacer s p) = .next (setPacer u q)) ∨
    (∃ r q, step s = .fault r ∧
      runIteration now (setPacer s p) = .fault (leaving r (setPacer (resume r) q))) := by
  rw [runIteration_running now (s := setPacer s p) hrun]
  obtain ⟨_, hpoll⟩ | ⟨_, last, hpoll⟩ := poll_cases (s := setPacer s p) now hclock
  · rw [hpoll]
    exact .inl ⟨p, rfl, rfl⟩
  · rw [hpoll]
    exact tick_setPacer_cases { p with lastGrant := last } hrun

/-- The loop is at some number of steps, or ended in the fault of the next one. -/
theorem runLoop_setPacer_cases (times : List Rat) {s : State} {p : Pacer} (hrun : s.runState = .running)
    (hclock : 0 < p.clockHz) :
    (∃ k ≤ times.length, ∃ u q, steps k s = .next u ∧
      runLoop times (setPacer s p) = .next (setPacer u q)) ∨
    (∃ k < times.length, ∃ u r q, steps k s = .next u ∧ step u = .fault r ∧
      runLoop times (setPacer s p) = .fault (leaving r (setPacer (resume r) q))) := by
  induction times generalizing s p with
  | nil => exact .inl ⟨0, le_rfl, s, p, rfl, rfl⟩
  | cons now times ih =>
    rw [runLoop, List.length_cons]
    obtain ⟨q, hq, h⟩ | ⟨u, q, hstep, hq, h⟩ | ⟨r, q, hstep, h⟩ :=
      runIteration_setPacer_cases now hrun hclock <;> rw [h]
    · rw [← hq] at hclock
      obtain ⟨k, hk, hend⟩ | ⟨k, hk, hend⟩ := ih hrun hclock
      · exact .inl ⟨k, by omega, hend⟩
      · exact .inr ⟨k, by omega, hend⟩
    · rw [← hq] at hclock
      have hrunning : u.runState = .running := by
        obtain ⟨_, _, _, _, _, _, hkept, _⟩ := stepNeverTouches s u (.inl hstep)
        rw [hkept, hrun]
      have hsteps (k : Nat) : steps (k + 1) s = steps k u := by rw [steps, hstep, andThen_next]
      obtain ⟨k, hk, hend⟩ | ⟨k, hk, hend⟩ := ih hrunning hclock <;> rw [← hsteps] at hend
      · exact .inl ⟨k + 1, by omega, hend⟩
      · exact .inr ⟨k + 1, by omega, hend⟩
    · exact .inr ⟨0, by omega, s, r, q, rfl, hstep, rfl⟩

/-- Settles O52: a run that is not refused is its loop from another pacer. -/
theorem runIsRepeatedSteps : Obligations.RunIsRepeatedSteps := by
  intro hz times s
  obtain ⟨hrun, hpos, p, rfl, _, hstart⟩ | ⟨hun, hstart⟩ | ⟨_, hhz, hstart⟩ := startRun_cases hz s
  · have hloop : run p.clockHz times s = runLoop times (setPacer s p) := by
      rw [run, hstart, andThen_next]
    rw [hloop]
    obtain ⟨k, hk, u, q, hsteps, h⟩ | ⟨k, hk, u, r, q, hsteps, hstep, h⟩ :=
      runLoop_setPacer_cases times hrun hpos <;> rw [h]
    · refine ⟨fun t ht => ?_, fun _ => nofun, fun _ _ _ => nofun⟩
      cases ht
      exact ⟨k, hk, u, hsteps, rfl⟩
    · refine ⟨fun _ => nofun, fun f hf => ?_, fun _ _ _ => nofun⟩
      cases hf
      rw [resume_leaving]
      exact ⟨k, hk, u, r, hsteps, hstep, rfl, rfl⟩
  · rw [run_of_startRun_refused hstart]
    refine ⟨fun _ => nofun, fun _ => nofun, fun q hrun => ?_⟩
    rw [hun] at hrun
    cases hrun
  · rw [run_of_startRun_refused hstart]
    exact ⟨fun _ => nofun, fun _ => nofun, fun q _ hpos => absurd hpos (not_lt.2 hhz)⟩

end Sys2Proof.Machine

/-! PROOFS. The stack micro-operations (44_stack_primitives.md R180 to R187): the address (O53), `Push` and
`Pull` (O54, O55), runs of them (O57, O58), and the word operations as runs of two (O56). -/

namespace Sys2Proof.Machine

/-! ### The stack address (R180) -/

theorem stackAddress_toNat (s : State) :
    (stackAddress s).toNat = s.cfg.stackHigh.toNat * 256 + s.sp.toNat % 256 := by
  have hlow : ((spLow s).zeroExtend 64).toNat = s.sp.toNat % 256 := by
    rw [BitVec.toNat_setWidth_of_le (by norm_num)]
    exact spLow_eq_iff.1 rfl |>.symm
  have hhigh : (s.cfg.stackHigh.zeroExtend 64 <<< 8).toNat = s.cfg.stackHigh.toNat <<< 8 := by
    have hlt := s.cfg.stackHigh.isLt
    rw [BitVec.toNat_shiftLeft, BitVec.toNat_setWidth_of_le (by norm_num), Nat.shiftLeft_eq]
    omega
  unfold stackAddress
  rw [BitVec.toNat_or, hhigh, hlow, ← Nat.shiftLeft_add_eq_or_of_lt (Nat.mod_lt _ (by norm_num)),
    Nat.shiftLeft_eq]

theorem stackAddress_congr {s t : State} (hcfg : t.cfg = s.cfg) (hsp : t.sp = s.sp) :
    stackAddress t = stackAddress s := by
  unfold stackAddress spLow
  rw [hcfg, hsp]

/-- Settles O53: `stackAddress_toNat`. -/
theorem stackAddressInItsWindow : Obligations.StackAddressInItsWindow := stackAddress_toNat

/-! ### One push and one pull (R181, R182) -/

/-- Settles O54: the two ends of `push_eq_next` and `push_eq_fault`. -/
theorem pushRule : Obligations.PushRule := by
  intro s b
  refine ⟨fun f hf => ?_, fun t ht => ?_⟩
  · obtain ⟨e, he, rfl⟩ := writeByte_eq_fault.1 hf
    exact ⟨push_eq_fault.2 (.inl ⟨e, he, rfl⟩), resume_memFault e s⟩
  · obtain ⟨m, hm, rfl⟩ := writeByte_eq_next.1 ht
    exact ⟨fun hlow => push_eq_next.2 ⟨hlow, m, hm, rfl⟩,
      fun hfull => ⟨push_eq_fault.2 (.inr ⟨hfull, m, hm, rfl⟩), rfl⟩⟩

/-- Settles O55: the cases of `pull_eq_next` and `pull_eq_fault`. -/
theorem pullRule : Obligations.PullRule := fun _ =>
  ⟨fun hempty => pull_eq_fault.2 (.inl ⟨hempty, rfl⟩),
    fun hlow => ⟨fun _ hb => pull_eq_next.2 ⟨hlow, rfl, hb⟩,
      fun e he => pull_eq_fault.2 (.inr ⟨hlow, e, he, rfl⟩)⟩⟩

/-! ### Runs of pushes (R183, R187) -/

/-- What a run of pushes that completes has done: `SP` counts the bytes within its low 8 bits, and the bytes
lie upward from the stack address. -/
structure Pushed (bs : List Byte) (s t : State) : Prop where
  others : { t with mem := s.mem, sp := s.sp } = s
  sp : t.sp.toNat = s.sp.toNat + bs.length
  room : s.sp.toNat % 256 + bs.length ≤ 255
  mem : ∀ x : Address, t.mem.readByte x =
    if (stackAddress s).toNat ≤ x.toNat ∧ x.toNat < (stackAddress s).toNat + bs.length then
      .ok (bs.getD (x.toNat - (stackAddress s).toNat) 0) else s.mem.readByte x

theorem Pushed.nil (s : State) : Pushed [] s s where
  others := rfl
  sp := rfl
  room := Nat.le_of_lt_succ (Nat.mod_lt _ (by norm_num))
  mem x := by rw [if_neg (by simp)]

theorem Pushed.cons {b : Byte} {bs : List Byte} {s u t : State} (hu : push b s = .next u)
    (h : Pushed bs u t) : Pushed (b :: bs) s t := by
  obtain ⟨hlow, m, hm, rfl⟩ := push_eq_next.1 hu
  obtain ⟨hothers, hsp, hroom, hmem⟩ := h
  have hnext : (setSp (setMem s m) (s.sp + 1)).sp.toNat = s.sp.toNat + 1 := sp_add_one_toNat hlow
  have haddr : (stackAddress (setSp (setMem s m) (s.sp + 1))).toNat = (stackAddress s).toNat + 1 := by
    rw [stackAddress_toNat, stackAddress_toNat, hnext]
    simp only [setSp_cfg, setMem_cfg]
    omega
  rw [hnext] at hsp hroom
  refine ⟨?_, by rw [List.length_cons]; omega, by rw [List.length_cons]; omega, fun x => ?_⟩
  · exact congrArg (fun v : State => { v with mem := s.mem, sp := s.sp }) hothers
  · rw [hmem x, haddr, setSp_mem, setMem_mem, readByte_writeByte hm x, List.length_cons]
    by_cases hx : stackAddress s = x
    · subst hx
      rw [if_neg (by omega), if_pos rfl, if_pos (by omega), Nat.sub_self, List.getD_cons_zero]
    · have hne : (stackAddress s).toNat ≠ x.toNat := fun h => hx (BitVec.eq_of_toNat_eq h)
      rw [if_neg hx]
      by_cases hin : (stackAddress s).toNat + 1 ≤ x.toNat ∧ x.toNat < (stackAddress s).toNat + 1 + bs.length
      · obtain ⟨j, hj⟩ := Nat.exists_eq_add_of_le hin.1
        rw [if_pos hin, if_pos (by omega), hj, Nat.add_sub_cancel_left, Nat.add_assoc,
          Nat.add_sub_cancel_left, Nat.add_comm 1, List.getD_cons_succ]
      · rw [if_neg hin, if_neg (by omega)]

theorem pushed_of_pushAll {bs : List Byte} {s t : State} (h : pushAll bs s = .next t) : Pushed bs s t := by
  induction bs generalizing s with
  | nil => cases h; exact .nil _
  | cons b bs ih =>
    obtain ⟨u, hu, h⟩ := andThen_eq_next.1 h
    exact (ih h).cons hu

/-- Byte `i` of the run is `i` above the stack address it began at. -/
theorem Pushed.readByte_add {bs : List Byte} {s t : State} (h : Pushed bs s t) {i : Nat}
    (hi : i < bs.length) : t.mem.readByte (stackAddress s + BitVec.ofNat 64 i) = .ok bs[i] := by
  have hroom := h.room
  have htoNat : (stackAddress s + BitVec.ofNat 64 i).toNat = (stackAddress s).toNat + i := by
    have haddr := stackAddress_toNat s
    have hhigh := s.cfg.stackHigh.isLt
    rw [BitVec.toNat_add, BitVec.toNat_ofNat]
    omega
  rw [h.mem, htoNat, if_pos (by omega), Nat.add_sub_cancel_left, List.getD_eq_getElem]

theorem Pushed.readByte_first {b : Byte} {bs : List Byte} {s t : State} (h : Pushed (b :: bs) s t) :
    t.mem.readByte (stackAddress s) = .ok b := by
  rw [h.mem, if_pos (by simp), Nat.sub_self, List.getD_cons_zero]

/-! ### Runs of pulls (R187) -/

/-- A run of pulls with its last pull apart. -/
theorem pullAll_succ (n : Nat) (s : State) :
    pullAll (n + 1) s =
      andThen (pullAll n s) fun r => andThen (pull r.1) fun q => .next (q.1, r.2 ++ [q.2]) := by
  induction n generalizing s with
  | zero => rfl
  | succ n ih =>
    rw [pullAll, pullAll]
    cases pull s with
    | fault f => rfl
    | refused q => rfl
    | next r =>
      simp only [andThen_next, ih]
      cases pullAll n r.1 with
      | fault f => rfl
      | refused q => rfl
      | next q => simp only [andThen_next]; cases pull q.1 <;> rfl

/-- Pulling after a push answers the pushed byte from any memory that still holds it. -/
theorem pull_of_push {b : Byte} {s u t : State} (hu : push b s = .next u) (hcfg : t.cfg = s.cfg)
    (hbyte : t.mem.readByte (stackAddress s) = .ok b) : pull (setSp t u.sp) = .next (setSp t s.sp, b) := by
  obtain ⟨hlow, m, _, rfl⟩ := push_eq_next.1 hu
  have hsp : s.sp + 1 - 1 = s.sp := BitVec.add_sub_cancel _ _
  refine pull_eq_next.2 ⟨?_, ?_, ?_⟩
  · rw [setSp_sp, setSp_sp, sp_add_one_toNat hlow]
    omega
  · rw [setSp_sp, setSp_sp, hsp]
    rfl
  · rw [stackAddress_congr (s := s) (t := setSp t s.sp) hcfg rfl]
    exact hbyte

/-- Last in, first out (R187). -/
theorem pullAll_pushAll {bs : List Byte} {s t : State} (h : pushAll bs s = .next t) :
    pullAll bs.length t = .next (setSp t s.sp, bs.reverse) := by
  induction bs generalizing s with
  | nil => cases h; rfl
  | cons b bs ih =>
    have hpushed := pushed_of_pushAll h
    have hcfg : t.cfg = s.cfg := (congrArg State.cfg hpushed.others :)
    obtain ⟨u, hu, h⟩ := andThen_eq_next.1 h
    rw [List.length_cons, pullAll_succ, ih h, andThen_next, pull_of_push hu hcfg hpushed.readByte_first,
      andThen_next, List.reverse_cons]

/-- Settles O57: `Pushed`, and `pullAll_pushAll`. -/
theorem stackIsLastInFirstOut : Obligations.StackIsLastInFirstOut := by
  intro bs s t h
  obtain ⟨hothers, hsp, hroom, _⟩ := pushed_of_pushAll h
  exact ⟨hothers, by omega, pullAll_pushAll h⟩

/-- Settles O58: from 0, the low 8 bits of `SP` have room for 255 bytes. -/
theorem atMost255Pushes : Obligations.AtMost255Pushes := by
  intro bs s t hempty h
  obtain ⟨_, hsp, hroom, _⟩ := pushed_of_pushAll h
  rw [hempty] at hsp hroom
  exact ⟨by simpa using hroom, by simpa using hsp⟩

/-! ### The word operations (R184, R185) -/

theorem pushWord_eq_pushAll (w : BitVec 16) (s : State) :
    pushWord w s = pushAll [w.extractLsb' 0 8, w.extractLsb' 8 8] s := by
  unfold pushWord pushAll
  congr 1
  funext u
  unfold pushAll
  cases push (w.extractLsb' 8 8) u <;> rfl

theorem pullWord_of_pullAll {s t : State} {hi lo : Byte} (h : pullAll 2 s = .next (t, [hi, lo])) :
    pullWord s = .next (t, hi ++ lo) := by
  unfold pullWord
  obtain ⟨p, hp, h⟩ := andThen_eq_next.1 h
  obtain ⟨rest, hrest, h⟩ := andThen_eq_next.1 h
  obtain ⟨q, hq, hrest⟩ := andThen_eq_next.1 hrest
  cases hrest
  cases h
  rw [hp, andThen_next, hq, andThen_next]

/-- Settles O56: the word operations are runs of two, and the two bytes make the word. -/
theorem pulledWordIsThePushedWord : Obligations.PulledWordIsThePushedWord := by
  intro s t w h
  rw [pushWord_eq_pushAll] at h
  have hpushed := pushed_of_pushAll h
  have hword : w.extractLsb' 8 8 ++ w.extractLsb' 0 8 = w :=
    (BitVec.extractLsb'_append_extractLsb'_eq_extractLsb' rfl).trans BitVec.extractLsb'_eq_self
  have hpull := pullWord_of_pullAll (pullAll_pushAll h)
  rw [hword] at hpull
  exact ⟨hpushed.readByte_first, hpushed.readByte_add (i := 1) (by simp), hpull⟩

end Sys2Proof.Machine
